-- ==== Sys2Proof/Word.lean ====
section
/-! DEFINITION. The word types of the block: the wire byte, the 16-bit length, and the three input words
(30_encoding.md R77, R79, R84; bit 0 is the least significant bit, 00_scope.md R6). -/

namespace Sys2Proof

/-- A byte, the unit of every stream and of the payload buffer (00_scope.md R6, 20_memory.md R56). -/
abbrev Byte := BitVec 8

/-- The 16-bit unsigned length field, and the byte counters of its width (10_state.md R22, R23, R29, R30). -/
abbrev Len := BitVec 16

/-- The RX op word (R77). -/
abbrev RxWord := BitVec 10

/-- The TX op word (R79). -/
abbrev TxWord := BitVec 18

/-- The level of the reset pin (R84). -/
abbrev PinWord := BitVec 1

end Sys2Proof
end

