-- ==== Sys2Proof/Syntax.lean ====
section
/-! DEFINITION. The ops of the block (30_encoding.md R78, R79, R84), the words its ports carry, what the
environment presents at one step, and the spec's textual layer as data: op lines (R88) and pseudo-ops (R89). -/

namespace Sys2Proof

/-- The block's instructions: one constructor per row of spec/opcode_table.json. An operand has exactly the bits
the op uses (R78, R79): the bits an op ignores are no part of the instruction (R85, U9). -/
inductive Instr where
  | rxNop                      -- RX_NOP    R141
  | rxByte (d : Byte)          -- RX_BYTE   R142
  | rxAbort                    -- RX_ABORT  R150
  | rxClrf (m : BitVec 4)      -- RX_CLRF   R151
  | txNop                      -- TX_NOP    R121
  | txStart (l : Len)          -- TX_START  R122
  | txByte (d : Byte)          -- TX_BYTE   R123
  | txClrf (m : BitVec 1)      -- TX_CLRF   R124
  | reset                      -- RESET     R200
  deriving DecidableEq, Repr

/-- The three inputs of the block (R77, R79, R84). -/
inductive Port where
  | rx
  | tx
  | pin
  deriving DecidableEq, Repr

/-- The input an op belongs to: the formats `RXOP`, `TXOP` and `PIN` of the opcode table. -/
def Instr.port : Instr → Port
  | .rxNop => .rx
  | .rxByte _ => .rx
  | .rxAbort => .rx
  | .rxClrf _ => .rx
  | .txNop => .tx
  | .txStart _ => .tx
  | .txByte _ => .tx
  | .txClrf _ => .tx
  | .reset => .pin

/-- The op's name in R78, R79, R84 and in spec/opcode_table.json. -/
def Instr.mnemonic : Instr → String
  | .rxNop => "RX_NOP"
  | .rxByte _ => "RX_BYTE"
  | .rxAbort => "RX_ABORT"
  | .rxClrf _ => "RX_CLRF"
  | .txNop => "TX_NOP"
  | .txStart _ => "TX_START"
  | .txByte _ => "TX_BYTE"
  | .txClrf _ => "TX_CLRF"
  | .reset => "RESET"

/-- One word on one input. -/
inductive PortWord where
  | rx (w : RxWord)
  | tx (w : TxWord)
  | pin (w : PinWord)
  deriving DecidableEq, Repr

/-- What the environment presents at one step of the block (R9, R84, U7): the level of the reset pin and at most
one op word on each op port. No word on a port is the "no op at all" of 20_memory.md R52
(notes/assumptions/5.md). -/
structure PortInput where
  reset : PinWord := 0
  rx : Option RxWord := none
  tx : Option TxWord := none
  deriving DecidableEq, Repr

/-- A pseudo-op (R89). -/
inductive PseudoOp where
  | rxBytes (bs : List Byte)
  | txFrame (payload : List Byte)
  | rxFrame (payload : List Byte)
  | rxClrAll
  | txClrAll
  deriving DecidableEq, Repr

/-- An op line (R88): a mnemonic, then the operand where there is one. -/
structure Line where
  mnemonic : String
  operand : Option Nat := none
  deriving DecidableEq, Repr

end Sys2Proof
end

