-- ==== Sys2Proof/WellFormed.lean ====
section
/-! DEFINITION. What a well-formed instruction, pseudo-op and op line is. Every `Instr` term is well formed,
because each operand's type has exactly the operand's bits and no op word is illegal (30_encoding.md R85); the
checks that can fail are those of the pseudo-ops (a payload must have a 16-bit length, R106) and of the op
lines (R88). -/

namespace Sys2Proof

/-- No op is illegal or reserved (R85): the operand types already hold exactly the legal values. -/
def Instr.wf : Instr → Bool
  | .rxNop => true
  | .rxByte _ => true
  | .rxAbort => true
  | .rxClrf _ => true
  | .txNop => true
  | .txStart _ => true
  | .txByte _ => true
  | .txClrf _ => true
  | .reset => true

/-- The pseudo-ops that frame a payload exist only for payloads of at most 65535 bytes, since the length operand
of `TX_START` and the length field of the envelope have 16 bits (R89, R106). -/
def PseudoOp.wf : PseudoOp → Bool
  | .rxBytes _ => true
  | .txFrame p => decide (p.length ≤ 65535)
  | .rxFrame p => decide (p.length ≤ 65535)
  | .rxClrAll => true
  | .txClrAll => true

/-- How many bits an op line's operand may fill, `some 0` for an op without an operand and `none` for a name
that is no op (R78, R79, R84, R88). A clear mask may fill its whole operand field: the bits above the flags are
ignored (R85; vector V74 writes `RX_CLRF 0xFF`). -/
def Line.operandBits (l : Line) : Option Nat :=
  if l.mnemonic = "RX_NOP" then some 0
  else if l.mnemonic = "RX_BYTE" then some 8
  else if l.mnemonic = "RX_ABORT" then some 0
  else if l.mnemonic = "RX_CLRF" then some 8
  else if l.mnemonic = "TX_NOP" then some 0
  else if l.mnemonic = "TX_START" then some 16
  else if l.mnemonic = "TX_BYTE" then some 8
  else if l.mnemonic = "TX_CLRF" then some 16
  else if l.mnemonic = "RESET" then some 0
  else none

/-- A line is well formed when its name is an op's, it has an operand exactly when the op takes one, and the
operand fits its field (R88). -/
def Line.wf (l : Line) : Bool :=
  match l.operandBits, l.operand with
  | none, _ => false
  | some 0, none => true
  | some 0, some _ => false
  | some (_ + 1), none => false
  | some (k + 1), some v => decide (v < 2 ^ (k + 1))

end Sys2Proof
end

