-- ==== Sys2Proof/Decode.lean ====
section
/-! DEFINITION. The decoders of the two op ports and of the reset pin, total on every word (30_encoding.md R78,
R79, R84, R85), the encoder, and the table-word view of both. -/

namespace Sys2Proof

/-- Why a word gives no instruction. The op ports have no illegal word (R85): these arise only for a pin at 0
and for a number that is no word of any port. -/
inductive DecodeReject where
  /-- The reset pin at 0: an ordinary step, not an instruction (R84). -/
  | pinLow
  /-- The number has a bit above the port's width. -/
  | wordTooWide
  /-- No row of the opcode table has this many bits. -/
  | noSuchWidth
  deriving DecidableEq, Repr

/-- The RX op decoder (R77, R78): `rx_op[9:8]` is the opcode, `rx_op[7:0]` the operand. -/
def decodeRx (w : RxWord) : Instr :=
  let opcode := w.extractLsb' 8 2
  if opcode = 0b00#2 then .rxNop
  else if opcode = 0b01#2 then .rxByte (w.extractLsb' 0 8)
  else if opcode = 0b10#2 then .rxAbort
  else .rxClrf (w.extractLsb' 0 4)

/-- The TX op decoder (R79): `tx_op[17:16]` is the opcode, `tx_op[15:0]` the operand. -/
def decodeTx (w : TxWord) : Instr :=
  let opcode := w.extractLsb' 16 2
  if opcode = 0b00#2 then .txNop
  else if opcode = 0b01#2 then .txStart (w.extractLsb' 0 16)
  else if opcode = 0b10#2 then .txByte (w.extractLsb' 0 8)
  else .txClrf (w.extractLsb' 0 1)

/-- The reset pin (R84): at 1 it is the row `RESET`. -/
def decodePin (w : PinWord) : Except DecodeReject Instr :=
  if w = 1#1 then .ok .reset else .error .pinLow

/-- The instruction a word on a port is. -/
def decode : PortWord → Except DecodeReject Instr
  | .rx w => .ok (decodeRx w)
  | .tx w => .ok (decodeTx w)
  | .pin w => decodePin w

/-- The word of an instruction, its ignored bits driven 0 as R85 asks of a producer. -/
def encode : Instr → PortWord
  | .rxNop => .rx (0b00#2 ++ 0#8)
  | .rxByte d => .rx (0b01#2 ++ d)
  | .rxAbort => .rx (0b10#2 ++ 0#8)
  | .rxClrf m => .rx (0b11#2 ++ (0#4 ++ m))
  | .txNop => .tx (0b00#2 ++ 0#16)
  | .txStart l => .tx (0b01#2 ++ l)
  | .txByte d => .tx (0b10#2 ++ (0#8 ++ d))
  | .txClrf m => .tx (0b11#2 ++ (0#15 ++ m))
  | .reset => .pin 1#1

/-- The ops a port input presents, in the order the step runs them. With the pin at 1 the step is a reset step
whatever the op words carry (R84, R200); otherwise each word offered is decoded. The RX op comes first; the two
commute (R10; notes/assumptions/6.md). -/
def PortInput.ops (i : PortInput) : List Instr :=
  if i.reset = 1#1 then [.reset]
  else (i.rx.map decodeRx).toList ++ (i.tx.map decodeTx).toList

/-- One word alone on its input, the others quiet. -/
def PortInput.ofWord : PortWord → PortInput
  | .rx w => { rx := some w }
  | .tx w => { tx := some w }
  | .pin w => { reset := w }

/-- An op alone, as its own word on its own input. -/
def PortInput.ofInstr (i : Instr) : PortInput := PortInput.ofWord (encode i)

/-- The port word that a number of `nbits` bits is: the width names the port, since the three formats have 10,
18 and 1 bits (16, 24 and 8 in whole bytes) (notes/assumptions/13.md). -/
def tableWord (nbits w : Nat) : Except DecodeReject PortWord :=
  if nbits = 1 ∨ nbits = 8 then
    if w < 2 ^ 1 then .ok (.pin (BitVec.ofNat 1 w)) else .error .wordTooWide
  else if nbits = 10 ∨ nbits = 16 then
    if w < 2 ^ 10 then .ok (.rx (BitVec.ofNat 10 w)) else .error .wordTooWide
  else if nbits = 18 ∨ nbits = 24 then
    if w < 2 ^ 18 then .ok (.tx (BitVec.ofNat 18 w)) else .error .wordTooWide
  else .error .noSuchWidth

/-- The instruction the decoder reads from a table word, or the name of its rejection. -/
def decodeNumber (nbits w : Nat) : Except DecodeReject Instr :=
  match tableWord nbits w with
  | .ok p => decode p
  | .error r => .error r

/-- The instruction the decoder reads from a table word; none where it rejects. -/
def decodeTableWord (nbits w : Nat) : Option Instr :=
  (decodeNumber nbits w).toOption

/-- The port input that presents a table word; a number that is no word of a port presents nothing. -/
def PortInput.ofTableWord (nbits w : Nat) : PortInput :=
  match tableWord nbits w with
  | .ok p => .ofWord p
  | .error _ => {}

/-- One row of the op tables of R78 and R79: `word AND mask = match` names the op. -/
structure OpRow where
  mnemonic : String
  pattern : Nat
  mask : Nat
  deriving DecidableEq, Repr

/-- The RX op table (R78). -/
def rxRows : List OpRow :=
  [⟨"RX_NOP", 0x000, 0x300⟩, ⟨"RX_BYTE", 0x100, 0x300⟩, ⟨"RX_ABORT", 0x200, 0x300⟩, ⟨"RX_CLRF", 0x300, 0x300⟩]

/-- The TX op table (R79). -/
def txRows : List OpRow :=
  [⟨"TX_NOP", 0x00000, 0x30000⟩, ⟨"TX_START", 0x10000, 0x30000⟩, ⟨"TX_BYTE", 0x20000, 0x30000⟩,
   ⟨"TX_CLRF", 0x30000, 0x30000⟩]

/-- Whether a row claims a word of `n` bits. -/
def OpRow.claims {n : Nat} (r : OpRow) (w : BitVec n) : Bool :=
  w &&& BitVec.ofNat n r.mask == BitVec.ofNat n r.pattern

end Sys2Proof
end

