-- ==== Sys2Proof/Config.lean ====
section
/-! DEFINITION. The two implementation parameters (00_scope.md R5). They are fixed for the life of the block
(10_state.md R38) and every step function takes them as an argument. -/

namespace Sys2Proof

/-- The parameters of R5, each with exactly its legal values: `START_DELIM` is any byte, `MAX_PAYLOAD` any
integer from 0 to 65535. -/
structure Params where
  startDelim : Byte
  maxPayload : Fin 65536
  deriving DecidableEq, Repr

/-- `START_DELIM` of this hardware. The source fixes one constant byte and gives no number (R71, D1, U1), so the
constant has no body and no proof can see its value (notes/assumptions/1.md; DESIGN CHOICE; safe). -/
opaque Config.startDelim : Byte

/-- `MAX_PAYLOAD` of this hardware: 65535 (R5, D2; notes/assumptions/2.md). -/
def Config.maxPayload : Fin 65536 := 65535

end Sys2Proof
end

