-- ==== Sys2Proof/Machine/Boot.lean ====
section
/-! DEFINITION. The parameter values of this block when it leaves reset (70_reset_and_hazards.md R202: "The
parameters START_DELIM and MAX_PAYLOAD are fixed before reset is released and never change"). -/

namespace Sys2Proof.Machine

/-- The parameters of this hardware, from Config (notes/assumptions/1.md, 2.md, 3.md). -/
def bootParams : Params := { startDelim := Config.startDelim, maxPayload := Config.maxPayload }

end Sys2Proof.Machine
end

