-- ==== Sys2Proof/Machine/Event.lean ====
section
/-! DEFINITION. The events of the two datapaths (30_encoding.md R80, R81; 60_exceptions.md R171) and their port
encodings. -/

namespace Sys2Proof.Machine

/-- An RX event: exactly the five of R80 (U8), each with the fields R80 lists for it. -/
inductive RxEvent where
  | none
  | frameOk (len : Len) (exp got : Byte) (payload : List Byte)
  | badDelim (exp got : Byte)
  | cksumErr (len : Len) (exp got : Byte)
  | overlen (len : Len)
  deriving DecidableEq, Repr

/-- A TX event: exactly the three of R81 (U8). -/
inductive TxEvent where
  | none
  | frameDone
  | seqErr
  deriving DecidableEq, Repr

/-- The RX event record as the port carries it (R80). -/
structure RxRecord where
  code : BitVec 3
  len : Len
  exp : Byte
  got : Byte
  payload : List Byte
  deriving DecidableEq, Repr

/-- The record of an event; fields not listed for a code are 0 or empty (R80). -/
def RxEvent.record : RxEvent → RxRecord
  | .none => ⟨0, 0, 0, 0, []⟩
  | .frameOk len exp got payload => ⟨1, len, exp, got, payload⟩
  | .badDelim exp got => ⟨2, 0, exp, got, []⟩
  | .cksumErr len exp got => ⟨3, len, exp, got, []⟩
  | .overlen len => ⟨4, len, 0, 0, []⟩

/-- The TX event code (R81). -/
def TxEvent.code : TxEvent → BitVec 2
  | .none => 0
  | .frameDone => 1
  | .seqErr => 2

/-- What a step puts on the delivery channel: its event, if it has one (20_memory.md R50). -/
def RxEvent.onChannel : RxEvent → List RxEvent
  | .none => []
  | .frameOk len exp got payload => [.frameOk len exp got payload]
  | .badDelim exp got => [.badDelim exp got]
  | .cksumErr len exp got => [.cksumErr len exp got]
  | .overlen len => [.overlen len]

end Sys2Proof.Machine
end

