-- ==== Sys2Proof/Machine/State.lean ====
section
/-! DEFINITION. The architectural state (10_state.md R20 to R33), its reset values (R40), and the reasons a step
can stop. -/

namespace Sys2Proof.Machine

/-- `rx.state` (R21): the position of the unframer in the envelope; exactly five values. -/
inductive RxPos where
  | hunt
  | lenHi
  | lenLo
  | payload
  | cksum
  deriving DecidableEq, Repr

/-- `tx.state` (R28). -/
inductive TxPos where
  | idle
  | body
  deriving DecidableEq, Repr

/-- The RX unframer's six items (R21 to R26). -/
structure RxState where
  /-- `rx.state` (R21). -/
  state : RxPos
  /-- `rx.len` (R22). -/
  len : Len
  /-- `rx.cnt` (R23): payload bytes stored so far, and the index of the next. -/
  cnt : Len
  /-- `rx.sum` (R24): the running sum of the stored payload bytes, modulo 256. -/
  sum : Byte
  /-- `rx.flags` (R25): bit 0 BADDELIM, 1 CKSUMERR, 2 OVERLEN, 3 ABORTED. -/
  flags : BitVec 4
  /-- `rx.buf` (R26): the cells written since reset. -/
  buf : Memory
  deriving DecidableEq, Repr

/-- The TX framer's five items (R28 to R32). -/
structure TxState where
  /-- `tx.state` (R28). -/
  state : TxPos
  /-- `tx.len` (R29). -/
  len : Len
  /-- `tx.cnt` (R30). -/
  cnt : Len
  /-- `tx.sum` (R31). -/
  sum : Byte
  /-- `tx.flags` (R32): bit 0 SEQERR. -/
  flags : BitVec 1
  deriving DecidableEq, Repr

/-- The machine: the block's whole state `rx` and `tx` (R20); the outputs of the latest step of each path (R80,
R81); the three streams of 20_memory.md R50, which belong to the environment (R38); and the parameters the step
functions take (R5). Plain data throughout. -/
structure State where
  /-- The parameters (R5); no step changes them (R38; notes/assumptions/3.md). -/
  params : Params
  rx : RxState
  tx : TxState
  /-- The RX event output: the event of the latest RX step (R80). -/
  rxEvent : RxEvent
  /-- The wire bytes the latest TX step emitted (R81). -/
  txOut : List Byte
  /-- The TX event output: the event of the latest TX step (R81). -/
  txEvent : TxEvent
  /-- What the environment will still present, oldest first (R10, R52; notes/assumptions/4.md). -/
  inputs : List PortInput
  /-- The outbound wire stream so far (R50, R53; notes/assumptions/10.md). -/
  wireOut : List Byte
  /-- The delivery channel so far: each event other than NONE (R50, R60; notes/assumptions/10.md). -/
  delivered : List RxEvent
  deriving DecidableEq, Repr

/-- Why a step stops with a fault. Both are unreachable from a state that satisfies the invariants of R27; in the
others the spec gives no successor (R202, U3), so stopping is safe. -/
inductive Fault where
  /-- Raised by `RX_BYTE` in CKSUM when the delivery reads a byte of `rx.buf` that this envelope has not written:
  the "read-before-write as a fault" of R26. Safe. -/
  | bufferReadUnwritten
  /-- Raised by `RX_BYTE` in PAYLOAD when `rx.cnt` is no index of `rx.buf` (R51, R58). Safe. -/
  | bufferOutOfRange
  deriving DecidableEq, Repr

/-- Why the model gives an op no meaning. -/
inductive Refusal where
  /-- An arm of `exec` that has no meaning yet. No arm raises it: every row of the table is modelled. Safe. -/
  | notModelled (mnemonic : String)
  deriving DecidableEq, Repr

/-- The RX reset values (R40, R200). Of `rx.buf` nothing is listed: its contents are unspecified. -/
def RxState.reset : RxState :=
  { state := .hunt, len := 0, cnt := 0, sum := 0, flags := 0, buf := [] }

/-- The TX reset values (R40, R200). -/
def TxState.reset : TxState :=
  { state := .idle, len := 0, cnt := 0, sum := 0, flags := 0 }

/-- The machine right after reset (R40): event outputs NONE, no byte emitted. The streams begin empty
(notes/assumptions/4.md, 10.md). -/
def State.reset : State :=
  { params := bootParams
    rx := .reset
    tx := .reset
    rxEvent := .none
    txOut := []
    txEvent := .none
    inputs := []
    wireOut := []
    delivered := [] }

end Sys2Proof.Machine
end

