-- ==== Sys2Proof/Machine/Flags.lean ====
section
/-! DEFINITION. The sticky flags: which event sets which (10_state.md R25, R32; 60_exceptions.md R171) and how a
clear mask clears them (R124, R151). -/

namespace Sys2Proof.Machine

/-- `rx.flags[3]`, set by `RX_ABORT` and tied to no event (R25, R150, R171). -/
def abortedFlag : BitVec 4 := 0b1000#4

/-- The RX flag an event sets (R171): BADDELIM bit 0, CKSUMERR bit 1, OVERLEN bit 2; `FRAME_OK` sets none. -/
def RxEvent.flag : RxEvent → BitVec 4
  | .none => 0b0000#4
  | .frameOk _ _ _ _ => 0b0000#4
  | .badDelim _ _ => 0b0001#4
  | .cksumErr _ _ _ => 0b0010#4
  | .overlen _ => 0b0100#4

/-- The TX flag an event sets (R171): SEQERR bit 0. -/
def TxEvent.flag : TxEvent → BitVec 1
  | .none => 0b0#1
  | .frameDone => 0b0#1
  | .seqErr => 0b1#1

/-- Set the flags of a mask; a flag already set stays set (R25, R183). -/
def setFlags {n : Nat} (flags mask : BitVec n) : BitVec n := flags ||| mask

/-- `flags AND NOT mask` (R124, R151). -/
def clearFlags {n : Nat} (flags mask : BitVec n) : BitVec n := flags &&& ~~~mask

end Sys2Proof.Machine
end

