-- ==== Sys2Proof/Machine/Operands.lean ====
section
/-! DEFINITION. The arithmetic of the block on its operands, all of it (40_envelope_functions.md R104):
assembling and splitting the length, the 8-bit running sum, and the final subtraction. -/

namespace Sys2Proof.Machine

/-- The length from its two wire bytes, the high byte first: `{hi, lo} = 256 * hi + lo` (R54, R72). -/
def lenOfBytes (hi lo : Byte) : Len := hi ++ lo

/-- `l[15:8] = l div 256`, wire byte 1 (R72). -/
def lenHigh (l : Len) : Byte := l.extractLsb' 8 8

/-- `l[7:0] = l mod 256`, wire byte 2 (R72). -/
def lenLow (l : Len) : Byte := l.extractLsb' 0 8

/-- One step of the 8-bit accumulator: addition that drops the carry (R101). -/
def addSum (sum d : Byte) : Byte := sum + d

/-- The checksum byte for a running sum: `0xFF - s`, which never borrows (R102). -/
def cksumOf (sum : Byte) : Byte := 0xFF#8 - sum

end Sys2Proof.Machine
end

