-- ==== Sys2Proof/Machine/Ops.lean ====
section
/-! DEFINITION. The operations the meanings share: access to the payload buffer, raising an event (the block's
taking of an exception), closing an envelope, and putting the outcome of a step of a path into the machine. -/

namespace Sys2Proof.Machine

/-- What a step of the RX unframer gives: the next RX state and the event (42_rx_unframer.md R140). -/
structure RxResult where
  rx : RxState
  ev : RxEvent
  deriving DecidableEq, Repr

/-- What a step of the TX framer gives: the next TX state, the bytes emitted, the event (41_tx_framer.md R120). -/
structure TxResult where
  tx : TxState
  out : List Byte
  ev : TxEvent
  deriving DecidableEq, Repr

/-- `MemWrite(addr, 1, b)` (00_scope.md R8): the buffer has indices 0 to `MAX_PAYLOAD - 1` (20_memory.md R51, R58);
a store at any other index faults, which R27 proves unreachable (notes/assumptions/8.md). -/
def memWrite (p : Params) (r : RxState) (addr : Nat) (b : Byte) : Except Fault RxState :=
  if addr < p.maxPayload.val then .ok { r with buf := Memory.write r.buf addr b }
  else .error .bufferOutOfRange

/-- `MemRead(addr, n)` (R8). Only the bytes of the envelope in progress, those below `rx.cnt`, have a value; a
read of any other faults (10_state.md R26; notes/assumptions/7.md). -/
def memRead (r : RxState) (addr n : Nat) : Except Fault (List Byte) :=
  if addr + n ≤ r.cnt.toNat then
    match Memory.readRange r.buf addr n with
    | some bs => .ok bs
    | none => .error .bufferReadUnwritten
  else .error .bufferReadUnwritten

/-- `raise E(info)` on the RX path (R8, R170, R180): the step's event is `E` and the sticky flag that R171 ties to
`E` is set. It saves nothing, vectors nowhere and stops nothing; the rule's other assignments still happen. There
is no return (R182). -/
def raiseRx (r : RxState) (e : RxEvent) : RxResult :=
  { rx := { r with flags := setFlags r.flags e.flag }, ev := e }

/-- `raise E` on the TX path (R8, R176): nothing is emitted and no register but the flag changes. -/
def raiseTx (t : TxState) (e : TxEvent) : TxResult :=
  { tx := { t with flags := setFlags t.flags e.flag }, out := [], ev := e }

/-- An RX step that raises nothing. -/
def quietRx (r : RxState) : RxResult := { rx := r, ev := .none }

/-- A TX step that emits nothing and raises nothing. -/
def quietTx (t : TxState) : TxResult := { tx := t, out := [], ev := .none }

/-- How an envelope closes, well or badly (R149): the four control registers return to their reset values. The
flags and the cells of the buffer stay; no rule reads those cells again (R26, R66). -/
def closeRx (r : RxState) : RxState := { r with state := .hunt, len := 0, cnt := 0, sum := 0 }

/-- The TX registers after a complete frame (R123): their reset values, but for the flags. -/
def closeTx (t : TxState) : TxState := { t with state := .idle, len := 0, cnt := 0, sum := 0 }

/-- The header of an envelope: the delimiter, then the length, high byte first (R70, R122). -/
def header (p : Params) (l : Len) : List Byte := [p.startDelim, lenHigh l, lenLow l]

/-- The machine after a step of the RX path: the RX state and event output are replaced, and the event, if any,
goes to the delivery channel (R50, R80). -/
def State.withRx (s : State) (res : RxResult) : State :=
  { s with rx := res.rx, rxEvent := res.ev, delivered := s.delivered ++ res.ev.onChannel }

/-- The machine after a step of the TX path: the TX state and outputs are replaced, and the bytes emitted are
appended, in order, to the outbound wire stream (R8 `emit`, R53, R81). -/
def State.withTx (s : State) (res : TxResult) : State :=
  { s with tx := res.tx, txOut := res.out, txEvent := res.ev, wireOut := s.wireOut ++ res.out }

/-- End a step of the RX path. -/
def finishRx (s : State) : Except Fault RxResult → Host.Outcome State Fault Refusal
  | .ok res => .next (s.withRx res)
  | .error f => .fault f

/-- End a step of the TX path. -/
def finishTx (s : State) (res : TxResult) : Host.Outcome State Fault Refusal := .next (s.withTx res)

/-- The next input the environment presents, taken off its list, each consumed once and in order (R52, R60). -/
def State.nextInput (s : State) : Option (PortInput × State) :=
  match s.inputs with
  | [] => none
  | i :: rest => some (i, { s with inputs := rest })

end Sys2Proof.Machine
end

