-- ==== Sys2Proof/Machine/ResetPin.lean ====
section
/-! DEFINITION. The reset step (70_reset_and_hazards.md R200). -/

namespace Sys2Proof.Machine

/-- `RESET` (R200): both datapaths take their reset values, the event outputs are NONE, no wire byte is emitted and
nothing is delivered (R201). The streams keep what they carried (R53), and the parameters never change (R38). -/
def execReset (s : State) : Host.Outcome State Fault Refusal :=
  .next { s with rx := .reset, tx := .reset, rxEvent := .none, txOut := [], txEvent := .none }

end Sys2Proof.Machine
end

