-- ==== Sys2Proof/Machine/RxUnframer.lean ====
section
/-! DEFINITION. The RX unframer's ops: RX_NOP, RX_BYTE, RX_ABORT, RX_CLRF (42_rx_unframer.md R140 to R151). -/

namespace Sys2Proof.Machine

/-- `RX_BYTE d` in HUNT: start delimiter detection (R143). -/
def rxByteHunt (p : Params) (r : RxState) (d : Byte) : RxResult :=
  if d = p.startDelim then quietRx { r with state := .lenHi }
  else raiseRx r (.badDelim p.startDelim d)

/-- `RX_BYTE d` in LEN_HI: the high byte of the length (R144). -/
def rxByteLenHi (r : RxState) (d : Byte) : RxResult :=
  quietRx { r with len := lenOfBytes d 0, state := .lenLo }

/-- `RX_BYTE d` in LEN_LO: the low byte of the length, and the length check (R145). -/
def rxByteLenLo (p : Params) (r : RxState) (d : Byte) : RxResult :=
  let l := lenOfBytes (lenHigh r.len) d
  if p.maxPayload.val < l.toNat then raiseRx (closeRx r) (.overlen l)
  else if l = 0#16 then quietRx { r with len := 0, state := .cksum }
  else quietRx { r with len := l, state := .payload }

/-- `RX_BYTE d` in PAYLOAD: store, sum and count; the last payload byte moves on to CKSUM (R146). -/
def rxBytePayload (p : Params) (r : RxState) (d : Byte) : Except Fault RxResult :=
  match memWrite p r r.cnt.toNat d with
  | .ok w =>
    .ok (quietRx { w with
      sum := addSum r.sum d
      cnt := r.cnt + 1
      state := if r.cnt.toNat + 1 = r.len.toNat then .cksum else .payload })
  | .error f => .error f

/-- `RX_BYTE d` in CKSUM: the verdict (R148). The payload leaves the block only here, and only on a match. -/
def rxByteCksum (r : RxState) (d : Byte) : Except Fault RxResult :=
  let exp := cksumOf r.sum
  if d = exp then
    match memRead r 0 r.len.toNat with
    | .ok payload => .ok { rx := closeRx r, ev := .frameOk r.len exp d payload }
    | .error f => .error f
  else .ok (raiseRx (closeRx r) (.cksumErr r.len exp d))

/-- `RX_BYTE d`: the step is chosen by `rx.state` alone (R76, R142). -/
def rxByte (p : Params) (r : RxState) (d : Byte) : Except Fault RxResult :=
  match r.state with
  | .hunt => .ok (rxByteHunt p r d)
  | .lenHi => .ok (rxByteLenHi r d)
  | .lenLo => .ok (rxByteLenLo p r d)
  | .payload => rxBytePayload p r d
  | .cksum => rxByteCksum r d

/-- `RX_ABORT` (R150): the partial envelope is dropped; ABORTED is set only when something was in progress. -/
def rxAbort (r : RxState) : RxResult :=
  quietRx { closeRx r with flags := if r.state = .hunt then r.flags else setFlags r.flags abortedFlag }

/-- `RX_NOP` (R141): nothing is assigned or raised. -/
def execRxNop (s : State) : Host.Outcome State Fault Refusal :=
  finishRx s (.ok (quietRx s.rx))

/-- `RX_BYTE d` (R142). -/
def execRxByte (d : Byte) (s : State) : Host.Outcome State Fault Refusal :=
  finishRx s (rxByte s.params s.rx d)

/-- `RX_ABORT` (R150). -/
def execRxAbort (s : State) : Host.Outcome State Fault Refusal :=
  finishRx s (.ok (rxAbort s.rx))

/-- `RX_CLRF m` (R151): the flags whose mask bit is 1 are cleared; nothing else changes. -/
def execRxClrf (m : BitVec 4) (s : State) : Host.Outcome State Fault Refusal :=
  finishRx s (.ok (quietRx { s.rx with flags := clearFlags s.rx.flags m }))

end Sys2Proof.Machine
end

