-- ==== Sys2Proof/Machine/TxFramer.lean ====
section
/-! DEFINITION. The TX framer's ops: TX_NOP, TX_START, TX_BYTE, TX_CLRF (41_tx_framer.md R120 to R124). -/

namespace Sys2Proof.Machine

/-- `TX_START l` (R122). In IDLE it emits the header, and for a payload of no bytes the checksum `0xFF` with it; in
BODY it is refused whole with `SEQ_ERR`. -/
def txStart (p : Params) (t : TxState) (l : Len) : TxResult :=
  match t.state with
  | .idle =>
    if l = 0#16 then { tx := t, out := [p.startDelim, 0x00, 0x00, 0xFF], ev := .frameDone }
    else { tx := { t with len := l, cnt := 0, sum := 0, state := .body }, out := header p l, ev := .none }
  | .body => raiseTx t .seqErr

/-- `TX_BYTE d` (R123). In BODY the byte goes out unchanged and is summed, the last one followed by the checksum;
in IDLE it is dropped with `SEQ_ERR`. -/
def txByte (t : TxState) (d : Byte) : TxResult :=
  match t.state with
  | .body =>
    let s := addSum t.sum d
    if t.cnt.toNat + 1 = t.len.toNat then { tx := closeTx t, out := [d, cksumOf s], ev := .frameDone }
    else { tx := { t with sum := s, cnt := t.cnt + 1 }, out := [d], ev := .none }
  | .idle => raiseTx t .seqErr

/-- `TX_NOP` (R121): nothing is assigned, emitted or raised. -/
def execTxNop (s : State) : Host.Outcome State Fault Refusal :=
  finishTx s (quietTx s.tx)

/-- `TX_START l` (R122). -/
def execTxStart (l : Len) (s : State) : Host.Outcome State Fault Refusal :=
  finishTx s (txStart s.params s.tx l)

/-- `TX_BYTE d` (R123). -/
def execTxByte (d : Byte) (s : State) : Host.Outcome State Fault Refusal :=
  finishTx s (txByte s.tx d)

/-- `TX_CLRF m` (R124): the flag is cleared where the mask bit is 1; nothing else changes. -/
def execTxClrf (m : BitVec 1) (s : State) : Host.Outcome State Fault Refusal :=
  finishTx s (quietTx { s.tx with flags := clearFlags s.tx.flags m })

end Sys2Proof.Machine
end

