-- ==== Sys2Proof/Machine/Dispatch.lean ====
section
/-! DEFINITION. The meaning of every op, one arm per constructor of Instr. -/

namespace Sys2Proof.Machine

-- The ops of 30_encoding.md R78, R79 and R84, in the order of spec/opcode_table.json.
def exec (i : Instr) (s : State) : Host.Outcome State Fault Refusal :=
  match i with
  | .rxNop => Sys2Proof.Machine.execRxNop s
  | .rxByte d => Sys2Proof.Machine.execRxByte d s
  | .rxAbort => Sys2Proof.Machine.execRxAbort s
  | .rxClrf m => Sys2Proof.Machine.execRxClrf m s
  | .txNop => Sys2Proof.Machine.execTxNop s
  | .txStart l => Sys2Proof.Machine.execTxStart l s
  | .txByte d => Sys2Proof.Machine.execTxByte d s
  | .txClrf m => Sys2Proof.Machine.execTxClrf m s
  | .reset => Sys2Proof.Machine.execReset s

end Sys2Proof.Machine
end

