-- ==== Sys2Proof/Machine/Step.lean ====
section
/-! DEFINITION. One step of the block (00_scope.md R9, 30_encoding.md R84): the environment presents the next port
input and the block runs the ops it carries. -/

namespace Sys2Proof.Machine

/-- Run ops one after the other, stopping at the first that does not give a next state (20_memory.md R60). -/
def execAll : List Instr → State → Host.Outcome State Fault Refusal
  | [], s => .next s
  | i :: is, s =>
    match exec i s with
    | .next t => execAll is t
    | .fault f => .fault f
    | .refused r => .refused r

/-- One step. Where the environment presents nothing, nothing happens (R9, R52; notes/assumptions/5.md). -/
def step (s : State) : Host.Outcome State Fault Refusal :=
  match s.nextInput with
  | none => .next s
  | some (i, t) => execAll i.ops t

/-- The machine with one table word presented next, alone, at the port its width names
(notes/assumptions/4.md, 13.md). -/
def State.withFetchWord (s : State) (nbits w : Nat) : State :=
  { s with inputs := PortInput.ofTableWord nbits w :: s.inputs }

end Sys2Proof.Machine
end

