-- ==== Sys2Proof/Machine/Envelope.lean ====
section
/-! DEFINITION. The source's own operations as pure functions on byte sequences: checksum, frame, unframe and
unframe_all (40_envelope_functions.md R100 to R109). The step rules must realise them (R127, R156). -/

namespace Sys2Proof.Machine

/-- `sum(S)`, the integer sum of the bytes (00_scope.md R7). -/
def byteSum (s : List Byte) : Nat := (s.map BitVec.toNat).sum

/-- `checksum(P) = 0xFF - (sum(P) mod 256)` (R100). -/
def checksum (s : List Byte) : Byte := BitVec.ofNat 8 (0xFF - byteSum s % 256)

/-- `acc(P)`: `acc([]) = 0`, `acc(P ++ [b]) = (acc(P) + b) mod 256` (R101). -/
def acc (s : List Byte) : Byte := s.foldl (fun a b => a + b) 0

/-- The envelope of a payload, byte by byte (R70, R105): delimiter, length high and low, payload, checksum. -/
def envelope (p : Params) (s : List Byte) : List Byte :=
  [p.startDelim, BitVec.ofNat 8 (s.length / 256), BitVec.ofNat 8 (s.length % 256)] ++ s ++ [checksum s]

/-- Why `frame` has no value (R106). -/
inductive FrameError where
  /-- The payload has more than 65535 bytes, and the length field cannot hold its length. -/
  | payloadTooLong
  deriving DecidableEq, Repr

/-- `frame(P)` (R105): refused, not truncated, for a payload of more than 65535 bytes (R106). -/
def frame (p : Params) (s : List Byte) : Except FrameError (List Byte) :=
  if s.length ≤ 65535 then .ok (envelope p s) else .error .payloadTooLong

/-- The five outcomes of `unframe`; each but `incomplete` says which bytes remain (R107). -/
inductive UnframeOutcome where
  | incomplete
  | badDelimiter (rest : List Byte)
  | overlen (len : Nat) (rest : List Byte)
  | ok (payload rest : List Byte)
  | checksumError (rest : List Byte)
  deriving DecidableEq, Repr

/-- `unframe(W)`, its tests in R107's order. A shortage of bytes is `incomplete` wherever it falls (R108). -/
def unframe (p : Params) : List Byte → UnframeOutcome
  | [] => .incomplete
  | delim :: tail =>
    if delim ≠ p.startDelim then .badDelimiter tail
    else
      match tail with
      | hi :: lo :: body =>
        let l := 256 * hi.toNat + lo.toNat
        if p.maxPayload.val < l then .overlen l body
        else
          match body.drop l with
          | [] => .incomplete
          | c :: rest => if c = checksum (body.take l) then .ok (body.take l) rest else .checksumError rest
      | _ => .incomplete

/-- The bytes an outcome leaves for the next call (R109); `incomplete` consumes nothing and leaves the same call to
be made again. -/
def UnframeOutcome.rest : UnframeOutcome → Option (List Byte)
  | .incomplete => none
  | .badDelimiter rest => some rest
  | .overlen _ rest => some rest
  | .ok _ rest => some rest
  | .checksumError rest => some rest

/-- The successive calls of `unframe_all`: each call's input with its outcome, and the unconsumed tail. The bound
on the calls is never met, since each call but the last consumes at least one byte (R109). -/
def unframeCallsWithin (p : Params) : Nat → List Byte → List (List Byte × UnframeOutcome) × List Byte
  | 0, w => ([], w)
  | n + 1, w =>
    match (unframe p w).rest with
    | none => ([], w)
    | some rest =>
      let (calls, pending) := unframeCallsWithin p n rest
      ((w, unframe p w) :: calls, pending)

/-- The calls of `unframe_all(W)`. -/
def unframeCalls (p : Params) (w : List Byte) : List (List Byte × UnframeOutcome) × List Byte :=
  unframeCallsWithin p w.length w

/-- `unframe_all(W)`: the outcomes in stream order and the pending tail (R109). -/
def unframeAll (p : Params) (w : List Byte) : List UnframeOutcome × List Byte :=
  ((unframeCalls p w).1.map Prod.snd, (unframeCalls p w).2)

/-- The event that R156 maps an outcome of a call to, with the fields R80 gives it, read off the call's input. -/
def callEvent (p : Params) : List Byte × UnframeOutcome → RxEvent
  | (_, .incomplete) => .none
  | (w, .badDelimiter _) => .badDelim p.startDelim (w.headD 0)
  | (_, .overlen l _) => .overlen (BitVec.ofNat 16 l)
  | (_, .ok s _) => .frameOk (BitVec.ofNat 16 s.length) (checksum s) (checksum s) s
  | (w, .checksumError rest) =>
    let l := w.length - rest.length - 4
    let s := (w.drop 3).take l
    .cksumErr (BitVec.ofNat 16 l) (checksum s) ((w.drop (3 + l)).headD 0)

/-- How many bytes a call consumed (R109). -/
def callConsumed : List Byte × UnframeOutcome → Nat
  | (w, r) => match r.rest with
    | none => 0
    | some rest => w.length - rest.length

/-- The event of each byte of `W` in turn (R156 (c)): NONE, but for the last byte that each outcome consumed. -/
def eventPerByte (p : Params) (w : List Byte) : List RxEvent :=
  ((unframeCalls p w).1.flatMap fun c => List.replicate (callConsumed c - 1) .none ++ [callEvent p c])
    ++ List.replicate (unframeCalls p w).2.length .none

end Sys2Proof.Machine
end

