-- ==== Sys2Proof/Machine/Assembly.lean ====
section
/-! DEFINITION. The block's "assembly" (30_encoding.md R88, R89): op lines to instructions, and the expansion of
the pseudo-ops. -/

namespace Sys2Proof

/-- The instruction an op line stands for; none for a line that is not well formed (R88). The bits an op ignores
are dropped (R85). -/
def Line.assemble (l : Line) : Option Instr :=
  let v := l.operand.getD 0
  if l.wf = false then none
  else if l.mnemonic = "RX_NOP" then some .rxNop
  else if l.mnemonic = "RX_BYTE" then some (.rxByte (BitVec.ofNat 8 v))
  else if l.mnemonic = "RX_ABORT" then some .rxAbort
  else if l.mnemonic = "RX_CLRF" then some (.rxClrf (BitVec.ofNat 4 v))
  else if l.mnemonic = "TX_NOP" then some .txNop
  else if l.mnemonic = "TX_START" then some (.txStart (BitVec.ofNat 16 v))
  else if l.mnemonic = "TX_BYTE" then some (.txByte (BitVec.ofNat 8 v))
  else if l.mnemonic = "TX_CLRF" then some (.txClrf (BitVec.ofNat 1 v))
  else some .reset

/-- The digits an operand is written with, each standing at the place that is its value (00_scope.md R6 writes hex
with capitals; notes/assumptions/12.md). -/
def Line.digitRow : List Char := "0123456789ABCDEF".toList

/-- The number a run of digits writes in a base, read on from a value; none at a character that is no digit of the
base. -/
def Line.digits (base : Nat) : Nat → List Char → Option Nat
  | v, [] => some v
  | v, c :: cs =>
    match (Line.digitRow.take base).idxOf? c.toUpper with
    | some d => Line.digits base (base * v + d) cs
    | none => none

/-- An operand in hex (`0x…`) or decimal (R88). -/
def Line.number : List Char → Option Nat
  | [] => none
  | ['0', 'x'] => none
  | '0' :: 'x' :: cs => Line.digits 16 0 cs
  | c :: cs => Line.digits 10 0 (c :: cs)

/-- The words of a text, split at spaces. -/
def Line.words : List Char → List (List Char)
  | [] => []
  | c :: cs =>
    if c = ' ' then [] :: Line.words cs
    else
      match Line.words cs with
      | [] => [[c]]
      | w :: ws => (c :: w) :: ws

/-- An op line from its text: the mnemonic, then the operand; a comment begins at a semicolon (R88). -/
def Line.parse (text : List Char) : Option Line :=
  match (Line.words (text.takeWhile (· ≠ ';'))).filter (· ≠ []) with
  | [m] => some { mnemonic := String.ofList m }
  | [m, n] =>
    match Line.number n with
    | some v => some { mnemonic := String.ofList m, operand := some v }
    | none => none
  | _ => none

/-- The ops a pseudo-op stands for (R89). `RX_FRAME` presents the wire bytes of `frame` (R105); the two that frame
a payload have no expansion for more than 65535 bytes (R106). -/
def PseudoOp.expand (p : Params) : PseudoOp → Except Machine.FrameError (List Instr)
  | .rxBytes bs => .ok (bs.map .rxByte)
  | .txFrame s =>
    if s.length ≤ 65535 then .ok (.txStart (BitVec.ofNat 16 s.length) :: s.map .txByte)
    else .error .payloadTooLong
  | .rxFrame s =>
    match Machine.frame p s with
    | .ok w => .ok (w.map .rxByte)
    | .error e => .error e
  | .rxClrAll => .ok [.rxClrf 0xF]
  | .txClrAll => .ok [.txClrf 1]

end Sys2Proof
end

