-- ==== Sys2Proof/Machine/Status.lean ====
section
/-! DEFINITION. The two read-only status words, functions of the state (10_state.md R37; 30_encoding.md R82,
R83), and the level INCOMPLETE (60_exceptions.md R174). -/

namespace Sys2Proof.Machine

/-- The code of `rx.state` (R21). -/
def RxPos.code : RxPos → BitVec 3
  | .hunt => 0
  | .lenHi => 1
  | .lenLo => 2
  | .payload => 3
  | .cksum => 4

/-- The code of `tx.state` (R28). -/
def TxPos.code : TxPos → BitVec 1
  | .idle => 0
  | .body => 1

/-- `INCOMPLETE`: 1 when `rx.state != HUNT` (R37, R82, R174). -/
def rxIncomplete (r : RxState) : BitVec 1 := if r.state = .hunt then 0 else 1

/-- `RXSTAT` (R82): FLAGS 39:36, INCOMPLETE 35, STATE 34:32, LEN 31:16, CNT 15:0. -/
def rxStat (r : RxState) : BitVec 40 := r.flags ++ rxIncomplete r ++ r.state.code ++ r.len ++ r.cnt

/-- `TXSTAT` (R83): SEQERR 33, STATE 32, LEN 31:16, CNT 15:0. -/
def txStat (t : TxState) : BitVec 34 := t.flags ++ t.state.code ++ t.len ++ t.cnt

end Sys2Proof.Machine
end

