-- ==== Sys2Proof/Machine/Trace.lean ====
section
/-! DEFINITION. Traces as data (30_encoding.md R90): per step the op, the event, the emitted bytes, and the state
after the step as `(state, len, cnt, sum)`. -/

namespace Sys2Proof.Machine

/-- The position of a path with its three data registers, as R90 writes a state. -/
structure RxView where
  state : RxPos
  len : Len
  cnt : Len
  sum : Byte
  deriving DecidableEq, Repr

/-- The same for the TX path. -/
structure TxView where
  state : TxPos
  len : Len
  cnt : Len
  sum : Byte
  deriving DecidableEq, Repr

/-- The RX state as a trace writes it. -/
def RxState.view (r : RxState) : RxView := ⟨r.state, r.len, r.cnt, r.sum⟩

/-- The TX state as a trace writes it. -/
def TxState.view (t : TxState) : TxView := ⟨t.state, t.len, t.cnt, t.sum⟩

/-- One line of a trace. The columns of the path that did not step are NONE and empty. -/
structure TraceEntry where
  op : Instr
  rxEvent : RxEvent
  txEvent : TxEvent
  out : List Byte
  rxAfter : RxView
  txAfter : TxView
  deriving DecidableEq, Repr

/-- The line for an op that gave the state `t`. -/
def traceEntry (i : Instr) (t : State) : TraceEntry :=
  match i.port with
  | .rx => ⟨i, t.rxEvent, .none, [], t.rx.view, t.tx.view⟩
  | .tx => ⟨i, .none, t.txEvent, t.txOut, t.rx.view, t.tx.view⟩
  | .pin => ⟨i, t.rxEvent, t.txEvent, t.txOut, t.rx.view, t.tx.view⟩

/-- The trace of a list of ops, up to the first that gives no next state. -/
def traceOf : List Instr → State → List TraceEntry
  | [], _ => []
  | i :: is, s =>
    match exec i s with
    | .next t => traceEntry i t :: traceOf is t
    | .fault _ => []
    | .refused _ => []

end Sys2Proof.Machine
end

