-- ==== Sys2Proof/Safety.lean ====
section
/-! DEFINITION. The states a claim may start from: the invariants of both datapaths (10_state.md R27, R33), which
70_reset_and_hazards.md R202 asks a model to take as its named launch premise, and quiescence (R212); and the
words in which claims speak of lists of ops. -/

namespace Sys2Proof

/-- The ops R156 allows between reset and the end of a feed: `RX_BYTE`, `RX_NOP`, `RX_CLRF`. -/
def Instr.feedsRx : Instr → Bool
  | .rxNop => true
  | .rxByte _ => true
  | .rxAbort => false
  | .rxClrf _ => true
  | .txNop => false
  | .txStart _ => false
  | .txByte _ => false
  | .txClrf _ => false
  | .reset => false

/-- The byte an `RX_BYTE` presents. -/
def Instr.wireByte : Instr → Option Byte
  | .rxNop => none
  | .rxByte d => some d
  | .rxAbort => none
  | .rxClrf _ => none
  | .txNop => none
  | .txStart _ => none
  | .txByte _ => none
  | .txClrf _ => none
  | .reset => none

/-- The byte a `TX_BYTE` supplies. -/
def Instr.payloadByte : Instr → Option Byte
  | .rxNop => none
  | .rxByte _ => none
  | .rxAbort => none
  | .rxClrf _ => none
  | .txNop => none
  | .txStart _ => none
  | .txByte d => some d
  | .txClrf _ => none
  | .reset => none

/-- The TX ops that R127 lets stand anywhere in a frame: `TX_NOP` and `TX_CLRF`. -/
def Instr.txFiller : Instr → Bool
  | .rxNop => false
  | .rxByte _ => false
  | .rxAbort => false
  | .rxClrf _ => false
  | .txNop => true
  | .txStart _ => false
  | .txByte _ => false
  | .txClrf _ => true
  | .reset => false

/-- The wire bytes a list of ops presents to the unframer, in order (R52). -/
def wireBytes (ops : List Instr) : List Byte := ops.filterMap Instr.wireByte

/-- The payload bytes a list of ops supplies to the framer, in order. -/
def payloadBytes (ops : List Instr) : List Byte := ops.filterMap Instr.payloadByte

end Sys2Proof

namespace Sys2Proof.Machine

/-- The payload bytes of the envelope in progress, `rx.buf[0 .. rx.cnt)` (R24, R26). -/
def RxState.collected (r : RxState) : Option (List Byte) := Memory.readRange r.buf 0 r.cnt.toNat

/-- The RX invariants of R27, row by row, with R24's meaning of `rx.sum`, which every row keeps (an empty count has
sum 0), and the buffer a canonical memory inside its index range (R26, R51). -/
abbrev RxInv (p : Params) (r : RxState) : Prop :=
  (r.state = .hunt ∨ r.state = .lenHi → r.len = 0 ∧ r.cnt = 0 ∧ r.sum = 0) ∧
  (r.state = .lenLo → lenLow r.len = 0 ∧ r.cnt = 0 ∧ r.sum = 0) ∧
  (r.state = .payload → 1 ≤ r.len.toNat ∧ r.len.toNat ≤ p.maxPayload.val ∧ r.cnt.toNat < r.len.toNat) ∧
  (r.state = .cksum → r.len.toNat ≤ p.maxPayload.val ∧ r.cnt = r.len) ∧
  r.collected.map acc = some r.sum ∧
  Memory.wf r.buf ∧ (∀ c ∈ r.buf, c.1 < p.maxPayload.val)

/-- The last `n` bytes of a stream. -/
def lastBytes (n : Nat) (w : List Byte) : List Byte := w.drop (w.length - n)

/-- The outbound stream ends in the open frame: its header and the `tx.cnt` payload bytes passed so far, contiguous
(R53), and `tx.sum` is their sum modulo 256 (R33). -/
abbrev OpenFrame (p : Params) (t : TxState) (wire : List Byte) : Prop :=
  (lastBytes (3 + t.cnt.toNat) wire).length = 3 + t.cnt.toNat ∧
  (lastBytes (3 + t.cnt.toNat) wire).take 3 = header p t.len ∧
  acc (lastBytes t.cnt.toNat wire) = t.sum

/-- The TX invariants of R33, row by row. -/
abbrev TxInv (p : Params) (t : TxState) (wire : List Byte) : Prop :=
  (t.state = .idle → t.len = 0 ∧ t.cnt = 0 ∧ t.sum = 0) ∧
  (t.state = .body → 1 ≤ t.len.toNat ∧ t.cnt.toNat < t.len.toNat ∧ OpenFrame p t wire)

/-- The launch premise of R202: the invariants of both paths. Behaviour from any other state is not specified
(U3; notes/assumptions/9.md). -/
abbrev State.Inv (s : State) : Prop := RxInv s.params s.rx ∧ TxInv s.params s.tx s.wireOut

/-- The wire byte the unframer takes next, counted in its envelope (R21, R36): 0 in HUNT, then 1, 2, `3 + rx.cnt`,
`3 + rx.len`. -/
def RxState.wireIndex (r : RxState) : Nat :=
  match r.state with
  | .hunt => 0
  | .lenHi => 1
  | .lenLo => 2
  | .payload => 3 + r.cnt.toNat
  | .cksum => 3 + r.len.toNat

/-- What the behaviour of the unframer may depend on: position, length, count, sum and the bytes collected in this
envelope, but neither the flags nor a stale byte of the buffer (R25, R26, R66). -/
abbrev RxState.Alike (a b : RxState) : Prop := a.view = b.view ∧ a.collected = b.collected

/-- No envelope is open either way (R212). -/
abbrev State.Quiescent (s : State) : Prop := s.rx.state = .hunt ∧ s.tx.state = .idle

end Sys2Proof.Machine
end

