-- ==== Sys2Proof/Certificates/Slice0/Obligations.lean ====
section
/-! DEFINITION. The statements for the provers. Each docstring names the rule of spec/ it formalises. Statements
about runs of ops speak of `execAll`; `RunOfInputsIsRunOfOps` ties it to `step`. -/

open Sys2Proof Sys2Proof.Machine

/-! ## Encodings -/

/-- Decode and encode agree, for every instruction with every operand value, and an op's word is one of its own
port (R77 to R79, R84). -/
def Obligations.DecodeOfEncodeGivesTheInstruction : Prop :=
  ∀ i : Instr,
    decode (encode i) = .ok i ∧
    (match encode i, i.port with
      | .rx _, .rx => True
      | .tx _, .tx => True
      | .pin _, .pin => True
      | _, _ => False)

/-- R77, R78: the four patterns, and every 10-bit value belongs to exactly one row, the one it decodes to. -/
def Obligations.RxOpTableFixesEveryWord : Prop :=
  (∀ x : BitVec 8, decodeRx (0b00#2 ++ x) = .rxNop) ∧
  (∀ d : BitVec 8, decodeRx (0b01#2 ++ d) = .rxByte d) ∧
  (∀ x : BitVec 8, decodeRx (0b10#2 ++ x) = .rxAbort) ∧
  (∀ x m : BitVec 4, decodeRx (0b11#2 ++ (x ++ m)) = .rxClrf m) ∧
  ∀ w : RxWord, (rxRows.filter (·.claims w)).map (·.mnemonic) = [(decodeRx w).mnemonic]

/-- R79: the four patterns, and every 18-bit value belongs to exactly one row, the one it decodes to. -/
def Obligations.TxOpTableFixesEveryWord : Prop :=
  (∀ x : BitVec 16, decodeTx (0b00#2 ++ x) = .txNop) ∧
  (∀ l : BitVec 16, decodeTx (0b01#2 ++ l) = .txStart l) ∧
  (∀ x d : BitVec 8, decodeTx (0b10#2 ++ (x ++ d)) = .txByte d) ∧
  (∀ (x : BitVec 15) (m : BitVec 1), decodeTx (0b11#2 ++ (x ++ m)) = .txClrf m) ∧
  ∀ w : TxWord, (txRows.filter (·.claims w)).map (·.mnemonic) = [(decodeTx w).mnemonic]

/-- R85, U9: every op word is the word of the op it decodes to, but for the bits the op ignores: no other bit of an
encoding is dropped, and two words that decode alike differ in ignored bits only. -/
def Obligations.WordsThatDecodeAlikeDifferOnlyInIgnoredBits : Prop :=
  (∀ v w : RxWord, decodeRx v = decodeRx w ↔
    v.extractLsb' 8 2 = w.extractLsb' 8 2 ∧
    (v.extractLsb' 8 2 = 0b01#2 → v.extractLsb' 0 8 = w.extractLsb' 0 8) ∧
    (v.extractLsb' 8 2 = 0b11#2 → v.extractLsb' 0 4 = w.extractLsb' 0 4)) ∧
  (∀ v w : TxWord, decodeTx v = decodeTx w ↔
    v.extractLsb' 16 2 = w.extractLsb' 16 2 ∧
    (v.extractLsb' 16 2 = 0b01#2 → v.extractLsb' 0 16 = w.extractLsb' 0 16) ∧
    (v.extractLsb' 16 2 = 0b10#2 → v.extractLsb' 0 8 = w.extractLsb' 0 8) ∧
    (v.extractLsb' 16 2 = 0b11#2 → v.extractLsb' 0 1 = w.extractLsb' 0 1))

/-- Op words printed in 95_test_vectors.md (V33, V44, V42, V50, V71, V74, V70, V30) and the reset pin decode to the
ops they are printed for. -/
def Obligations.PrintedOpWordsDecode : Prop :=
  decodeTableWord 16 0x17E = some (.rxByte 0x7E) ∧ decodeTableWord 16 0x200 = some .rxAbort ∧
  decodeTableWord 16 0x3FF = some (.rxClrf 0xF) ∧ decodeTableWord 16 0x000 = some .rxNop ∧
  decodeTableWord 24 0x1FFFF = some (.txStart 65535) ∧ decodeTableWord 24 0x2AB4E = some (.txByte 0x4E) ∧
  decodeTableWord 24 0x30001 = some (.txClrf 1) ∧ decodeTableWord 24 0x00000 = some .txNop ∧
  decodeTableWord 8 0x1 = some .reset ∧ decodeTableWord 8 0x0 = none

/-- R80 (the codes and fields of the RX record) and R81 (the TX event codes). -/
def Obligations.EventCodesAndFields : Prop :=
  RxEvent.none.record = ⟨0, 0, 0, 0, []⟩ ∧
  (∀ len exp got payload, (RxEvent.frameOk len exp got payload).record = ⟨1, len, exp, got, payload⟩) ∧
  (∀ exp got, (RxEvent.badDelim exp got).record = ⟨2, 0, exp, got, []⟩) ∧
  (∀ len exp got, (RxEvent.cksumErr len exp got).record = ⟨3, len, exp, got, []⟩) ∧
  (∀ len, (RxEvent.overlen len).record = ⟨4, len, 0, 0, []⟩) ∧
  TxEvent.none.code = 0 ∧ TxEvent.frameDone.code = 1 ∧ TxEvent.seqErr.code = 2

/-- R82, R83: each field of the two status words stands at its bits, with the state codes of R21 and R28. -/
def Obligations.StatusWordsShowTheirFields : Prop :=
  (∀ r : RxState,
    (rxStat r).extractLsb' 0 16 = r.cnt ∧ (rxStat r).extractLsb' 16 16 = r.len ∧
    ((rxStat r).extractLsb' 32 3).toNat =
      (match r.state with | .hunt => 0 | .lenHi => 1 | .lenLo => 2 | .payload => 3 | .cksum => 4) ∧
    ((rxStat r).getLsbD 35 = true ↔ r.state ≠ .hunt) ∧ (rxStat r).extractLsb' 36 4 = r.flags) ∧
  (∀ t : TxState,
    (txStat t).extractLsb' 0 16 = t.cnt ∧ (txStat t).extractLsb' 16 16 = t.len ∧
    ((txStat t).extractLsb' 32 1).toNat = (match t.state with | .idle => 0 | .body => 1) ∧
    (txStat t).extractLsb' 33 1 = t.flags)

/-! ## The step -/

/-- A step runs the decoded op: when the next input is one word that decodes to `i`, the step is `exec i` on the
state that has taken that input. -/
def Obligations.StepRunsTheDecodedOp : Prop :=
  ∀ (s : State) (p : PortWord) (i : Instr) (rest : List PortInput),
    decode p = .ok i → s.inputs = PortInput.ofWord p :: rest → step s = exec i { s with inputs := rest }

/-- R84: the pin at 1 is the row `RESET`, and the step is then a reset step whatever the op words carry; with the pin
at 0 the op words act, each on its own path. -/
def Obligations.ResetPinOutranksBothOpWords : Prop :=
  decode (.pin 1#1) = .ok .reset ∧
  ∀ (s : State) (rx : Option RxWord) (tx : Option TxWord) (rest : List PortInput),
    (s.inputs = ⟨1, rx, tx⟩ :: rest → step s = exec .reset { s with inputs := rest }) ∧
    (∀ v w, s.inputs = ⟨0, some v, some w⟩ :: rest →
      step s = execAll [decodeRx v, decodeTx w] { s with inputs := rest })

/-- 20_memory.md R52: a step in which the environment offers no op changes nothing of the block and none of its
outputs (what the outputs show in such a step is the model's reading, notes/assumptions/5.md). -/
def Obligations.StepWithoutAnOpChangesNothing : Prop :=
  ∀ (s : State) (rest : List PortInput),
    (s.inputs = [] → step s = .next s) ∧
    (s.inputs = {} :: rest → step s = .next { s with inputs := rest })

/-- Feeding ops through `step`, one word at a time, is running them one after the other: the statements below
about `execAll` are about runs of the machine (R60). -/
def Obligations.RunOfInputsIsRunOfOps : Prop :=
  ∀ (ops : List Instr) (s : State) (rest : List PortInput),
    s.inputs = ops.map PortInput.ofInstr ++ rest →
    Host.Core.run core ops.length s = execAll ops { s with inputs := rest }

/-! ## Reset -/

/-- R40: the reset values. Of `rx.buf` the rule gives none, so nothing is claimed of it. -/
def Obligations.ResetStateHoldsTheResetValues : Prop :=
  State.reset.rx.state = .hunt ∧ State.reset.rx.len = 0 ∧ State.reset.rx.cnt = 0 ∧ State.reset.rx.sum = 0 ∧
  State.reset.rx.flags = 0b0000#4 ∧
  State.reset.tx.state = .idle ∧ State.reset.tx.len = 0 ∧ State.reset.tx.cnt = 0 ∧ State.reset.tx.sum = 0 ∧
  State.reset.tx.flags = 0b0#1 ∧
  rxStat State.reset.rx = 0 ∧ txStat State.reset.tx = 0 ∧
  State.reset.rxEvent = .none ∧ State.reset.txEvent = .none ∧ State.reset.txOut = []

/-- R200: from any state, both datapaths take their reset values, both events are NONE and nothing is emitted; a
second reset changes nothing; both op words are ignored in a reset step; and reset is the only op that writes both
datapaths and the only one that clears a flag without a mask. The buffer's contents become unspecified, so nothing is
claimed of them. The streams keep what they carried (R201: nothing is delivered), and the parameters stay. -/
def Obligations.ResetOpRestoresTheResetValues : Prop :=
  ∀ s : State,
    (∃ t : State, exec .reset s = .next t ∧
      t.rx.state = .hunt ∧ t.rx.len = 0 ∧ t.rx.cnt = 0 ∧ t.rx.sum = 0 ∧ t.rx.flags = 0 ∧
      t.tx.state = .idle ∧ t.tx.len = 0 ∧ t.tx.cnt = 0 ∧ t.tx.sum = 0 ∧ t.tx.flags = 0 ∧
      t.rxEvent = .none ∧ t.txEvent = .none ∧ t.txOut = [] ∧
      t.wireOut = s.wireOut ∧ t.delivered = s.delivered ∧ t.inputs = s.inputs ∧ t.params = s.params ∧
      exec .reset t = .next t) ∧
    (∀ (rx : Option RxWord) (tx : Option TxWord) (rest : List PortInput),
      s.inputs = ⟨1, rx, tx⟩ :: rest → step s = exec .reset { s with inputs := rest }) ∧
    ∀ (i : Instr) (t : State), i ≠ .reset → exec i s = .next t →
      (t.rx = s.rx ∨ t.tx = s.tx) ∧
      ((∀ m, i ≠ .rxClrf m) → ∀ k, s.rx.flags.getLsbD k = true → t.rx.flags.getLsbD k = true) ∧
      ((∀ m, i ≠ .txClrf m) → ∀ k, s.tx.flags.getLsbD k = true → t.tx.flags.getLsbD k = true)

/-! ## The TX framer -/

/-- R121: nothing is assigned, emitted or raised. -/
def Obligations.TxNopChangesNothing : Prop :=
  ∀ s : State, exec .txNop s = .next { s with txOut := [], txEvent := .none }

/-- R122: in IDLE the header goes out, and for `l = 0` the checksum of the empty payload with it; in BODY the op is
refused whole. -/
def Obligations.TxStartOpensAFrame : Prop :=
  ∀ (s : State) (l : Len),
    (s.tx.state = .idle → l = 0#16 → exec (.txStart l) s = .next { s with
      txOut := [s.params.startDelim, 0x00, 0x00, 0xFF], txEvent := .frameDone,
      wireOut := s.wireOut ++ [s.params.startDelim, 0x00, 0x00, 0xFF] }) ∧
    (s.tx.state = .idle → l ≠ 0#16 → exec (.txStart l) s = .next { s with
      tx := { s.tx with state := .body, len := l, cnt := 0, sum := 0 }
      txOut := [s.params.startDelim, BitVec.ofNat 8 (l.toNat / 256), BitVec.ofNat 8 (l.toNat % 256)]
      txEvent := .none
      wireOut := s.wireOut ++
        [s.params.startDelim, BitVec.ofNat 8 (l.toNat / 256), BitVec.ofNat 8 (l.toNat % 256)] }) ∧
    (s.tx.state = .body → exec (.txStart l) s = .next { s with
      tx := { s.tx with flags := 1 }, txOut := [], txEvent := .seqErr })

/-- R123: in BODY the byte goes out, the last one followed by the checksum; in IDLE the op is refused whole. -/
def Obligations.TxBytePassesAPayloadByte : Prop :=
  ∀ (s : State) (d : Byte),
    (s.tx.state = .body → s.tx.cnt.toNat + 1 = s.tx.len.toNat → exec (.txByte d) s = .next { s with
      tx := { s.tx with state := .idle, len := 0, cnt := 0, sum := 0 }
      txOut := [d, BitVec.ofNat 8 (0xFF - (s.tx.sum.toNat + d.toNat) % 256)]
      txEvent := .frameDone
      wireOut := s.wireOut ++ [d, BitVec.ofNat 8 (0xFF - (s.tx.sum.toNat + d.toNat) % 256)] }) ∧
    (s.tx.state = .body → s.tx.cnt.toNat + 1 ≠ s.tx.len.toNat → exec (.txByte d) s = .next { s with
      tx := { s.tx with
        sum := BitVec.ofNat 8 ((s.tx.sum.toNat + d.toNat) % 256), cnt := BitVec.ofNat 16 (s.tx.cnt.toNat + 1) }
      txOut := [d], txEvent := .none, wireOut := s.wireOut ++ [d] }) ∧
    (s.tx.state = .idle → exec (.txByte d) s = .next { s with
      tx := { s.tx with flags := 1 }, txOut := [], txEvent := .seqErr })

/-- R124: mask bit 1 clears the flag, mask bit 0 leaves it; nothing else changes. -/
def Obligations.TxClrfClearsTheFlag : Prop :=
  ∀ s : State,
    exec (.txClrf 1) s = .next { s with tx := { s.tx with flags := 0 }, txOut := [], txEvent := .none } ∧
    exec (.txClrf 0) s = .next { s with txOut := [], txEvent := .none }

/-- R171, R176: `SEQ_ERR` is raised exactly by a `TX_START` in BODY and a `TX_BYTE` in IDLE, and such a step emits
nothing and changes only the flag. -/
def Obligations.RefusedTxOpLeavesNoTrace : Prop :=
  ∀ (i : Instr) (s : State), i.port = .tx → ∃ t, exec i s = .next t ∧
    (t.txEvent = .seqErr ↔
      ((∃ l, i = .txStart l) ∧ s.tx.state = .body) ∨ ((∃ d, i = .txByte d) ∧ s.tx.state = .idle)) ∧
    (t.txEvent = .seqErr →
      t = { s with tx := { s.tx with flags := 1 }, txOut := [], txEvent := .seqErr })

/-- R81, R125: a TX step that raises `FRAME_DONE` leaves a complete envelope at the end of the wire stream, of a
payload whose length is the one announced, and the framer idle; a TX step that does not emits no checksum byte:
it leaves the frame open or had none open. -/
def Obligations.FrameDoneMeansACompleteEnvelope : Prop :=
  ∀ (i : Instr) (s : State), s.Inv → i.port = .tx → ∃ t, exec i s = .next t ∧
    (t.txEvent = .frameDone → t.tx.state = .idle ∧ ∃ pre payload,
      t.wireOut = pre ++ envelope s.params payload ∧
      (s.tx.state = .body → payload.length = s.tx.len.toNat) ∧ (s.tx.state = .idle → payload = [])) ∧
    (t.txEvent ≠ .frameDone → s.tx.state = .body → t.tx.state = .body) ∧
    (t.txEvent ≠ .frameDone → s.tx.state = .idle → t.tx.state = .idle → t.wireOut = s.wireOut)

/-- R125, R128, R205: once a frame is open, it stays open, whatever ops but reset come, until exactly the announced
number of `TX_BYTE`s have been accepted, and the last of them raises `FRAME_DONE`. -/
def Obligations.FrameStaysOpenUntilItsBytesAreSupplied : Prop :=
  ∀ (s : State) (ops : List Instr), s.Inv → s.tx.state = .body → (∀ i ∈ ops, i ≠ .reset) →
    (s.tx.cnt.toNat + (payloadBytes ops).length < s.tx.len.toNat →
      ∃ t, execAll ops s = .next t ∧ t.tx.state = .body ∧ t.tx.len = s.tx.len ∧
        t.tx.cnt.toNat = s.tx.cnt.toNat + (payloadBytes ops).length) ∧
    (∀ d, s.tx.cnt.toNat + (payloadBytes ops).length + 1 = s.tx.len.toNat →
      ∃ t, execAll (ops ++ [.txByte d]) s = .next t ∧ t.tx.state = .idle ∧ t.txEvent = .frameDone)

/-- R127: the op sequence of a payload emits exactly `frame(P)`, raises `FRAME_DONE` at its last step and nothing
before, and ends in the reset registers with the flag unchanged; `TX_NOP` and `TX_CLRF` ops inserted anywhere do
not change the emitted bytes. -/
def Obligations.FramerAgreesWithFrame : Prop :=
  ∀ (s : State) (payload : List Byte), s.Inv → s.tx.state = .idle → payload.length ≤ 65535 →
    (∃ t wire, execAll (.txStart (BitVec.ofNat 16 payload.length) :: payload.map .txByte) s = .next t ∧
      frame s.params payload = .ok wire ∧ t.wireOut = s.wireOut ++ wire ∧
      t.tx = { state := .idle, len := 0, cnt := 0, sum := 0, flags := s.tx.flags } ∧
      (traceOf (.txStart (BitVec.ofNat 16 payload.length) :: payload.map .txByte) s).map (·.txEvent) =
        List.replicate payload.length .none ++ [.frameDone]) ∧
    (∀ ops : List Instr,
      ops.filter (fun i => !i.txFiller) = .txStart (BitVec.ofNat 16 payload.length) :: payload.map .txByte →
      ∃ t wire, execAll ops s = .next t ∧ frame s.params payload = .ok wire ∧ t.wireOut = s.wireOut ++ wire)

/-! ## The RX unframer -/

/-- R141: nothing is assigned or raised. -/
def Obligations.RxNopChangesNothing : Prop :=
  ∀ s : State, exec .rxNop s = .next { s with rxEvent := .none }

/-- R143: the delimiter opens an envelope; any other byte is reported with `BAD_DELIM` and dropped. -/
def Obligations.RxByteHuntsForTheDelimiter : Prop :=
  ∀ (s : State) (d : Byte), s.rx.state = .hunt →
    (d = s.params.startDelim → exec (.rxByte d) s = .next { s with
      rx := { s.rx with state := .lenHi }, rxEvent := .none }) ∧
    (d ≠ s.params.startDelim → exec (.rxByte d) s = .next { s with
      rx := { s.rx with flags := s.rx.flags ||| 0b0001#4 }
      rxEvent := .badDelim s.params.startDelim d
      delivered := s.delivered ++ [.badDelim s.params.startDelim d] })

/-- R144: the first length byte is the high one, and the low one is 0 until it comes. -/
def Obligations.RxByteTakesTheHighLengthByte : Prop :=
  ∀ (s : State) (d : Byte), s.rx.state = .lenHi →
    exec (.rxByte d) s = .next { s with
      rx := { s.rx with len := BitVec.ofNat 16 (256 * d.toNat), state := .lenLo }, rxEvent := .none }

/-- R145: with `L = 256 * rx.len[15:8] + d`, the over-long length, the empty payload and the ordinary one. -/
def Obligations.RxByteTakesTheLowLengthByte : Prop :=
  ∀ (s : State) (d : Byte), s.rx.state = .lenLo →
    (s.params.maxPayload.val < 256 * (s.rx.len.toNat / 256) + d.toNat → exec (.rxByte d) s = .next { s with
      rx := { s.rx with state := .hunt, len := 0, cnt := 0, sum := 0, flags := s.rx.flags ||| 0b0100#4 }
      rxEvent := .overlen (BitVec.ofNat 16 (256 * (s.rx.len.toNat / 256) + d.toNat))
      delivered := s.delivered ++ [.overlen (BitVec.ofNat 16 (256 * (s.rx.len.toNat / 256) + d.toNat))] }) ∧
    (256 * (s.rx.len.toNat / 256) + d.toNat = 0 → exec (.rxByte d) s = .next { s with
      rx := { s.rx with len := 0, state := .cksum }, rxEvent := .none }) ∧
    (1 ≤ 256 * (s.rx.len.toNat / 256) + d.toNat →
      256 * (s.rx.len.toNat / 256) + d.toNat ≤ s.params.maxPayload.val → exec (.rxByte d) s = .next { s with
      rx := { s.rx with len := BitVec.ofNat 16 (256 * (s.rx.len.toNat / 256) + d.toNat), state := .payload }
      rxEvent := .none })

/-- R146: the byte is stored at index `rx.cnt`, every other byte of the buffer reads as before, the byte is summed
and counted, and the last one moves to CKSUM. -/
def Obligations.RxByteCollectsAPayloadByte : Prop :=
  ∀ (s : State) (d : Byte), s.rx.state = .payload → s.rx.cnt.toNat < s.params.maxPayload.val →
    ∃ buf : Memory,
      exec (.rxByte d) s = .next { s with
        rx := { s.rx with
          state := if s.rx.cnt.toNat + 1 = s.rx.len.toNat then .cksum else .payload
          cnt := BitVec.ofNat 16 (s.rx.cnt.toNat + 1)
          sum := BitVec.ofNat 8 ((s.rx.sum.toNat + d.toNat) % 256)
          buf := buf }
        rxEvent := .none } ∧
      Memory.read buf s.rx.cnt.toNat = some d ∧
      ∀ a, a ≠ s.rx.cnt.toNat → Memory.read buf a = Memory.read s.rx.buf a

/-- R148: on a match the whole payload, exactly `rx.len` bytes in arrival order, is delivered; otherwise
`CKSUM_ERR` and no payload; either way the control registers are cleared. The expected byte is the checksum of the
bytes collected. -/
def Obligations.RxByteGivesTheVerdict : Prop :=
  ∀ (s : State) (d : Byte), s.Inv → s.rx.state = .cksum →
    ∃ payload, s.rx.collected = some payload ∧ payload.length = s.rx.len.toNat ∧
      BitVec.ofNat 8 (0xFF - s.rx.sum.toNat) = checksum payload ∧
      (d = checksum payload → exec (.rxByte d) s = .next { s with
        rx := { s.rx with state := .hunt, len := 0, cnt := 0, sum := 0 }
        rxEvent := .frameOk s.rx.len (checksum payload) d payload
        delivered := s.delivered ++ [.frameOk s.rx.len (checksum payload) d payload] }) ∧
      (d ≠ checksum payload → exec (.rxByte d) s = .next { s with
        rx := { s.rx with state := .hunt, len := 0, cnt := 0, sum := 0, flags := s.rx.flags ||| 0b0010#4 }
        rxEvent := .cksumErr s.rx.len (checksum payload) d
        delivered := s.delivered ++ [.cksumErr s.rx.len (checksum payload) d] })

/-- R150: outside HUNT the partial envelope is dropped and ABORTED set; in HUNT nothing changes at all; and twice is
once. -/
def Obligations.RxAbortDropsTheEnvelope : Prop :=
  ∀ s : State,
    (s.rx.state ≠ .hunt → exec .rxAbort s = .next { s with
      rx := { s.rx with state := .hunt, len := 0, cnt := 0, sum := 0, flags := s.rx.flags ||| 0b1000#4 }
      rxEvent := .none }) ∧
    (s.Inv → s.rx.state = .hunt → exec .rxAbort s = .next { s with rxEvent := .none }) ∧
    ∃ t, exec .rxAbort s = .next t ∧ exec .rxAbort t = .next t

/-- R151: bit by bit, the flags whose mask bit is 1 are cleared and the others kept; nothing else changes. -/
def Obligations.RxClrfClearsTheMaskedFlags : Prop :=
  ∀ (s : State) (m : BitVec 4), ∃ flags : BitVec 4,
    exec (.rxClrf m) s = .next { s with rx := { s.rx with flags := flags }, rxEvent := .none } ∧
    ∀ k, k < 4 → flags.getLsbD k = (s.rx.flags.getLsbD k && !m.getLsbD k)

/-- R147: once an envelope is open the value of a byte is never compared with `START_DELIM`: with another
delimiter the step does the same. -/
def Obligations.DelimiterValueIsSpecialOnlyInHunt : Prop :=
  ∀ (s : State) (d delim : Byte), s.Inv → s.rx.state ≠ .hunt →
    ∃ t, exec (.rxByte d) s = .next t ∧
      exec (.rxByte d) { s with params := { s.params with startDelim := delim } } =
        .next { t with params := { t.params with startDelim := delim } }

/-- R36: outside HUNT each `RX_BYTE` moves on by exactly one wire byte, or closes the envelope with an event at its
low length byte or its checksum byte; in HUNT it opens one or drops the byte. -/
def Obligations.RxByteAdvancesOneWireByte : Prop :=
  ∀ (s : State) (d : Byte), s.Inv → ∃ t, exec (.rxByte d) s = .next t ∧
    (t.rxEvent = .none → t.rx.wireIndex = s.rx.wireIndex + 1) ∧
    (t.rxEvent ≠ .none → t.rx.wireIndex = 0 ∧ (s.rx.state = .hunt ∨ s.rx.state = .lenLo ∨ s.rx.state = .cksum))

/-- R149: every RX step that closes an envelope, and reset, leaves the four control registers at their reset
values, and an event or the ABORTED flag tells of it, but for reset. -/
def Obligations.ClosedEnvelopeLeavesResetControlState : Prop :=
  ∀ (i : Instr) (s : State), s.Inv → s.rx.state ≠ .hunt → ∃ t, exec i s = .next t ∧
    (t.rx.state = .hunt →
      t.rx.view = RxState.reset.view ∧
      (i = .reset ∨ (i = .rxAbort ∧ t.rx.flags.getLsbD 3 = true) ∨ (∃ d, i = .rxByte d ∧ t.rxEvent ≠ .none)))

/-- R152: while an envelope is open nothing but a byte, `RX_ABORT` and reset moves the unframer, however many other
ops pass; nothing is reported, no flag is set, and `INCOMPLETE` stays 1. -/
def Obligations.OpenEnvelopeWaitsWithoutLimit : Prop :=
  ∀ (ops : List Instr) (s : State), s.Inv → s.rx.state ≠ .hunt →
    (∀ i ∈ ops, i ≠ .rxAbort ∧ i ≠ .reset ∧ i.wireByte = none) →
    ∃ t, execAll ops s = .next t ∧ t.rx.view = s.rx.view ∧ t.rx.buf = s.rx.buf ∧
      t.delivered = s.delivered ∧ (∀ k, t.rx.flags.getLsbD k = true → s.rx.flags.getLsbD k = true) ∧
      (rxStat t.rx).getLsbD 35 = true

/-- R25, R171: an RX op sets exactly the flag of the event it raises, `RX_ABORT` sets ABORTED exactly when an
envelope was open, and only `RX_CLRF` clears one; no op of the TX path touches them. -/
def Obligations.RxFlagsAreSetByTheirEvents : Prop :=
  ∀ (i : Instr) (s t : State), exec i s = .next t → (∀ m, i ≠ .rxClrf m) → i ≠ .reset →
    (t.rx.flags.getLsbD 0 = true ↔ s.rx.flags.getLsbD 0 = true ∨
      (i.port = .rx ∧ ∃ exp got, t.rxEvent = .badDelim exp got)) ∧
    (t.rx.flags.getLsbD 1 = true ↔ s.rx.flags.getLsbD 1 = true ∨
      (i.port = .rx ∧ ∃ len exp got, t.rxEvent = .cksumErr len exp got)) ∧
    (t.rx.flags.getLsbD 2 = true ↔ s.rx.flags.getLsbD 2 = true ∨
      (i.port = .rx ∧ ∃ len, t.rxEvent = .overlen len)) ∧
    (t.rx.flags.getLsbD 3 = true ↔ s.rx.flags.getLsbD 3 = true ∨ (i = .rxAbort ∧ s.rx.state ≠ .hunt))

/-- R175: an RX op raises `OVERLEN` exactly when it is the low length byte that completes a length above `MAX_PAYLOAD`,
and never when `MAX_PAYLOAD` is 65535. -/
def Obligations.OverlenMeansALengthBeyondTheBuffer : Prop :=
  ∀ (i : Instr) (s t : State), exec i s = .next t → i.port = .rx →
    (∀ l, t.rxEvent = .overlen l ↔ ∃ d, i = .rxByte d ∧ s.rx.state = .lenLo ∧
      s.params.maxPayload.val < 256 * (s.rx.len.toNat / 256) + d.toNat ∧
      l.toNat = 256 * (s.rx.len.toNat / 256) + d.toNat) ∧
    (s.params.maxPayload.val = 65535 → ∀ l, t.rxEvent ≠ .overlen l)

/-- R154: `FRAME_OK` is raised only by the step that consumes the checksum byte of an envelope, and that byte is the
checksum of what it delivers; a step delivers at most one event. -/
def Obligations.FrameOkOnlyAtAMatchingChecksum : Prop :=
  ∀ (i : Instr) (s t : State), s.Inv → exec i s = .next t →
    (t.delivered = s.delivered ∨ ∃ e, e ≠ .none ∧ t.rxEvent = e ∧ t.delivered = s.delivered ++ [e]) ∧
    (∀ len exp got payload, i.port = .rx → t.rxEvent = .frameOk len exp got payload →
      s.rx.state = .cksum ∧ i = .rxByte got ∧ got = exp ∧ exp = checksum payload ∧
      payload.length = len.toNat ∧ s.rx.collected = some payload)

/-- R211 with R154: an open envelope that is given the bytes it is owed closes at the last of them, with exactly
one verdict, and raises nothing before. -/
def Obligations.OwedBytesCloseTheEnvelope : Prop :=
  ∀ (s : State) (bs : List Byte) (last : Byte), s.Inv → s.rx.state = .payload →
    s.rx.cnt.toNat + bs.length = s.rx.len.toNat →
    ∃ collected, s.rx.collected = some collected ∧
      (∃ t, execAll (bs.map .rxByte) s = .next t ∧ t.rx.state = .cksum ∧ t.delivered = s.delivered) ∧
      ∃ t, execAll ((bs ++ [last]).map .rxByte) s = .next t ∧ t.rx.state = .hunt ∧
        t.delivered = s.delivered ++
          [if last = checksum (collected ++ bs) then .frameOk s.rx.len last last (collected ++ bs)
            else .cksumErr s.rx.len (checksum (collected ++ bs)) last]

/-- R156, from any state in HUNT that satisfies the invariants: (a) the events other than NONE are the outcomes of
`unframe_all`; (b) the final state is HUNT exactly when nothing is pending, and otherwise the one the pending bytes
alone give, with INCOMPLETE 1; (c) each event comes at the byte its outcome consumed last; and a well-formed frame
is delivered at its last byte. -/
def Obligations.UnframerAgreesWithUnframeAll : Prop :=
  ∀ s : State, s.Inv → s.rx.state = .hunt →
    (∀ ops : List Instr, (∀ i ∈ ops, i.feedsRx = true) → ∃ t, execAll ops s = .next t ∧
      t.delivered = s.delivered ++ (unframeCalls s.params (wireBytes ops)).1.map (callEvent s.params) ∧
      (t.rx.state = .hunt ↔ (unframeAll s.params (wireBytes ops)).2 = []) ∧
      ((unframeAll s.params (wireBytes ops)).2 ≠ [] → (rxStat t.rx).getLsbD 35 = true ∧
        ∃ u, execAll ((unframeAll s.params (wireBytes ops)).2.map .rxByte) s = .next u ∧ t.rx.Alike u.rx) ∧
      ((traceOf ops s).filter (fun e => e.op.wireByte.isSome)).map (·.rxEvent) =
        eventPerByte s.params (wireBytes ops)) ∧
    (∀ payload : List Byte, payload.length ≤ s.params.maxPayload.val → ∃ t,
      execAll ((envelope s.params payload).map .rxByte) s = .next t ∧ t.rx.view = ⟨.hunt, 0, 0, 0⟩ ∧
      (traceOf ((envelope s.params payload).map .rxByte) s).map (·.rxEvent) =
        List.replicate (payload.length + 3) .none ++
          [.frameOk (BitVec.ofNat 16 payload.length) (checksum payload) (checksum payload) payload])

/-- R157: a framer's wire stream fed to an unframer with the same delimiter gives exactly one event, `FRAME_OK` of
the payload, at the checksum byte. -/
def Obligations.LoopBackDeliversThePayload : Prop :=
  ∀ (s r : State) (payload : List Byte), s.Inv → r.Inv → s.params.startDelim = r.params.startDelim →
    s.tx.state = .idle → r.rx.state = .hunt → payload.length ≤ r.params.maxPayload.val →
    ∃ t wire, execAll (.txStart (BitVec.ofNat 16 payload.length) :: payload.map .txByte) s = .next t ∧
      t.wireOut = s.wireOut ++ wire ∧
      (∃ u, execAll (wire.map .rxByte) r = .next u ∧ u.delivered = r.delivered ++
        [.frameOk (BitVec.ofNat 16 payload.length) (checksum payload) (checksum payload) payload]) ∧
      ∃ u, execAll (wire.dropLast.map .rxByte) r = .next u ∧ u.delivered = r.delivered

/-! ## The envelope functions -/

/-- R101: the incremental form is the sum modulo 256. -/
def Obligations.AccumulatorIsTheSumModulo256 : Prop :=
  acc [] = 0 ∧ (∀ p b, acc (p ++ [b]) = BitVec.ofNat 8 (((acc p).toNat + b.toNat) % 256)) ∧
  ∀ p, (acc p).toNat = byteSum p % 256

/-- R102, R103: the checksum is the complement of the accumulator, and the three forms of acceptance agree. -/
def Obligations.ChecksumFormsAgree : Prop :=
  checksum [] = 0xFF ∧
  (∀ p, checksum p = ~~~ acc p) ∧
  ∀ p c, (c = checksum p ↔ (byteSum p + c.toNat) % 256 = 0xFF) ∧
    (c = checksum p ↔ ((acc p).toNat + c.toNat) % 256 = 0xFF)

/-- R105, R106: `frame` of a payload of at most 65535 bytes, byte by byte, and its refusal beyond. -/
def Obligations.FrameBuildsTheEnvelope : Prop :=
  ∀ (p : Params) (payload : List Byte),
    (payload.length ≤ 65535 → ∃ wire, frame p payload = .ok wire ∧ wire.length = payload.length + 4 ∧
      wire = [p.startDelim, BitVec.ofNat 8 (payload.length / 256), BitVec.ofNat 8 (payload.length % 256)]
        ++ payload ++ [BitVec.ofNat 8 (0xFF - (payload.map BitVec.toNat).sum % 256)]) ∧
    (65535 < payload.length → frame p payload = .error .payloadTooLong) ∧
    frame p [] = .ok [p.startDelim, 0x00, 0x00, 0xFF]

/-- R107: the five outcomes, each under its tests, and `Incomplete` wherever bytes are short (R108). -/
def Obligations.UnframeFollowsItsTests : Prop :=
  ∀ (p : Params) (w : List Byte),
    (w.length = 0 → unframe p w = .incomplete) ∧
    (∀ b : Byte, w[0]? = some b → b ≠ p.startDelim → unframe p w = .badDelimiter (w.drop 1)) ∧
    (w[0]? = some p.startDelim → w.length < 3 → unframe p w = .incomplete) ∧
    (∀ (hi lo : Byte) (l : Nat), w[0]? = some p.startDelim → w[1]? = some hi → w[2]? = some lo →
      l = 256 * hi.toNat + lo.toNat →
      (p.maxPayload.val < l → unframe p w = .overlen l (w.drop 3)) ∧
      (l ≤ p.maxPayload.val → w.length < l + 4 → unframe p w = .incomplete) ∧
      (∀ c : Byte, l ≤ p.maxPayload.val → w[3 + l]? = some c →
        (c = checksum ((w.drop 3).take l) → unframe p w = .ok ((w.drop 3).take l) (w.drop (l + 4))) ∧
        (c ≠ checksum ((w.drop 3).take l) → unframe p w = .checksumError (w.drop (l + 4)))))

/-- R109: which bytes each outcome leaves, the recursion of `unframe_all`, and that each call leaves strictly less than
it was given. -/
def Obligations.UnframeAllFollowsItsRecursion : Prop :=
  ∀ (p : Params) (w : List Byte),
    (∀ rest, unframe p w = .badDelimiter rest → rest = w.drop 1) ∧
    (∀ l rest, unframe p w = .overlen l rest → rest = w.drop 3) ∧
    (∀ payload rest, unframe p w = .ok payload rest → rest = w.drop (payload.length + 4)) ∧
    (∀ rest, unframe p w = .checksumError rest → ∃ hi lo : Byte, w[1]? = some hi ∧ w[2]? = some lo ∧
      rest = w.drop (256 * hi.toNat + lo.toNat + 4)) ∧
    (unframe p w = .incomplete → unframeAll p w = ([], w)) ∧
    (∀ rest, (unframe p w).rest = some rest → rest.length < w.length ∧
      unframeAll p w = (unframe p w :: (unframeAll p rest).1, (unframeAll p rest).2))

/-- R110: unframing undoes framing, whatever follows. -/
def Obligations.UnframeUndoesFrame : Prop :=
  ∀ (p : Params) (payload tail : List Byte), payload.length ≤ p.maxPayload.val →
    ∃ wire, frame p payload = .ok wire ∧ unframe p (wire ++ tail) = .ok payload tail

/-- R111: one flipped bit in one payload byte or in the checksum byte is always detected; one in the delimiter gives
`BadDelimiter`. -/
def Obligations.SingleBitCorruptionIsDetected : Prop :=
  ∀ (p : Params) (payload : List Byte) (k : Nat), payload.length ≤ p.maxPayload.val → k < 8 →
    (∀ (n : Nat) (b : Byte), 3 ≤ n → n ≤ payload.length + 3 → (envelope p payload)[n]? = some b →
      unframe p ((envelope p payload).set n (b ^^^ BitVec.twoPow 8 k)) = .checksumError []) ∧
    unframe p ((envelope p payload).set 0 (p.startDelim ^^^ BitVec.twoPow 8 k)) =
      .badDelimiter ((envelope p payload).drop 1)

/-- R112: a change of the payload that keeps its length and its sum modulo 256 passes, whatever it is; reordering is
one; and so does a change of payload and checksum byte that cancel. -/
def Obligations.ChangesThatKeepTheSumPass : Prop :=
  ∀ (p : Params) (sent got : List Byte) (tail : List Byte), sent.length ≤ p.maxPayload.val →
    got.length = sent.length →
    (byteSum got % 256 = byteSum sent % 256 →
      unframe p ((envelope p sent).take 3 ++ got ++ [checksum sent] ++ tail) = .ok got tail) ∧
    (got.Perm sent → byteSum got = byteSum sent) ∧
    ∀ c : Byte, (byteSum got + c.toNat) % 256 = 0xFF →
      unframe p ((envelope p sent).take 3 ++ got ++ [c] ++ tail) = .ok got tail

/-- R113: every strict prefix of a frame is incomplete. -/
def Obligations.StrictPrefixesAreIncomplete : Prop :=
  ∀ (p : Params) (payload : List Byte) (n : Nat), payload.length ≤ p.maxPayload.val →
    n < payload.length + 4 → unframe p ((envelope p payload).take n) = .incomplete

/-! ## The whole machine -/

/-- R20: no RX op writes a TX item or output and no TX op an RX one, and none reads one: with other values there it
does the same. No op touches the parameters or what is still to be presented. -/
def Obligations.OpsStayOnTheirPath : Prop :=
  ∀ (i : Instr) (s t : State), exec i s = .next t →
    (i.port = .rx → t.tx = s.tx ∧ t.txOut = s.txOut ∧ t.txEvent = s.txEvent ∧ t.wireOut = s.wireOut ∧
      ∀ tx out ev wire, exec i { s with tx := tx, txOut := out, txEvent := ev, wireOut := wire } =
        .next { t with tx := tx, txOut := out, txEvent := ev, wireOut := wire }) ∧
    (i.port = .tx → t.rx = s.rx ∧ t.rxEvent = s.rxEvent ∧ t.delivered = s.delivered ∧
      ∀ rx ev chan, exec i { s with rx := rx, rxEvent := ev, delivered := chan } =
        .next { t with rx := rx, rxEvent := ev, delivered := chan }) ∧
    t.params = s.params ∧ t.inputs = s.inputs

/-- R10, R61: any interleaving of an RX op sequence and a TX op sequence gives the same state and the same outputs
of each path as the one after the other. -/
def Obligations.InterleavingsAgree : Prop :=
  ∀ (ops : List Instr) (s : State), (∀ i ∈ ops, i ≠ .reset) →
    execAll ops s =
      execAll (ops.filter (fun i => decide (i.port = .rx)) ++ ops.filter (fun i => decide (i.port = .tx))) s

/-- R25, R26, R32, R66: no flag and no byte of the buffer beyond `rx.cnt` influences anything: from two states that
differ in nothing else of the block, the same ops raise the same events, emit the same bytes and keep the two
alike. So the treatment of a frame does not depend on the frames before it. -/
def Obligations.FlagsAndStaleBytesInfluenceNothing : Prop :=
  ∀ (ops : List Instr) (s t : State), s.Inv → t.Inv → s.params = t.params → s.rx.Alike t.rx →
    s.tx.view = t.tx.view →
    ∃ u v events bytes, execAll ops s = .next u ∧ execAll ops t = .next v ∧
      u.rx.Alike v.rx ∧ u.tx.view = v.tx.view ∧
      traceOf ops s = traceOf ops t ∧
      u.delivered = s.delivered ++ events ∧ v.delivered = t.delivered ++ events ∧
      u.wireOut = s.wireOut ++ bytes ∧ v.wireOut = t.wireOut ++ bytes

/-- R57: `RX_NOP`, `TX_NOP`, `RX_ABORT`, `RX_CLRF m`, `TX_CLRF m` twice in a row equal once; so does reset
(R200). -/
def Obligations.IdempotentOpsTwiceEqualOnce : Prop :=
  ∀ (i : Instr) (s : State), i.wireByte = none → i.payloadByte = none → (∀ l, i ≠ .txStart l) →
    ∃ t, exec i s = .next t ∧ exec i t = .next t

/-- R26, R51: a byte of the buffer changes only by the store of an `RX_BYTE` in PAYLOAD, at index `rx.cnt`, and by
reset. -/
def Obligations.BufferChangesOnlyByCollection : Prop :=
  ∀ (i : Instr) (s t : State) (a : Nat), exec i s = .next t → i ≠ .reset →
    (∀ d, i = .rxByte d → s.rx.state = .payload → a ≠ s.rx.cnt.toNat) →
    Memory.read t.rx.buf a = Memory.read s.rx.buf a

/-- R53, R60, R81: a step appends to the outbound stream at most 4 bytes and withdraws none, appends to the delivery
channel at most one event, takes the first input and leaves the rest in order. -/
def Obligations.StreamsOnlyGrowAndInputsAreTakenInOrder : Prop :=
  ∀ s t : State, step s = .next t →
    (∃ out, out.length ≤ 4 ∧ t.wireOut = s.wireOut ++ out) ∧
    (∃ events, events.length ≤ 1 ∧ t.delivered = s.delivered ++ events) ∧
    t.inputs = s.inputs.drop 1

/-- R38, R213, U6: no step changes the parameters. -/
def Obligations.ParametersNeverChange : Prop :=
  ∀ s t : State, step s = .next t → t.params = s.params

/-- The invariants of R27 and R33 hold right after reset. -/
def Obligations.ResetMeetsTheInvariants : Prop := State.reset.Inv

/-- R27, R33: every step keeps the invariants, from every state that has them. -/
def Obligations.StepKeepsTheInvariants : Prop :=
  ∀ s t : State, s.Inv → step s = .next t → t.Inv

/-- R120, R140, R170: the step functions are total and no event stops the block: from a state that satisfies the
invariants a step always answers a next state. In particular the two faults of the model, an unwritten byte read
and an index out of range, never occur (R26, R51). -/
def Obligations.StepNeverStops : Prop :=
  ∀ s : State, s.Inv → ∃ t, step s = .next t

/-- R89: the expansions. -/
def Obligations.PseudoOpsExpandAsListed : Prop :=
  ∀ p : Params,
    (∀ bs, PseudoOp.expand p (.rxBytes bs) = .ok (bs.map .rxByte)) ∧
    PseudoOp.expand p (.txFrame []) = .ok [.txStart 0] ∧
    (∀ b bs, bs.length < 65535 → PseudoOp.expand p (.txFrame (b :: bs)) =
      .ok (.txStart (BitVec.ofNat 16 (bs.length + 1)) :: .txByte b :: bs.map .txByte)) ∧
    (∀ payload, payload.length ≤ 65535 → ∃ wire, frame p payload = .ok wire ∧
      PseudoOp.expand p (.rxFrame payload) = .ok (wire.map .rxByte)) ∧
    PseudoOp.expand p .rxClrAll = .ok [.rxClrf 0b1111#4] ∧
    PseudoOp.expand p .txClrAll = .ok [.txClrf 0b1#1]
end

