-- ==== Sys2Proof/Laws/Bits.lean ====
section
/-! SUPPORT. The fields of a word put together by concatenation, read back. -/

namespace Sys2Proof

/-- The high field of a word is what was put there. -/
theorem high_of_append {n m : Nat} (a : BitVec n) (b : BitVec m) : (a ++ b).extractLsb' m n = a := by
  ext i hi
  simp [BitVec.getLsbD_append, BitVec.getLsbD_eq_getElem hi]

/-- The low bits of a word are those of its low field. -/
theorem low_of_append {n m k : Nat} (a : BitVec n) (b : BitVec m) (h : k ≤ m) :
    (a ++ b).extractLsb' 0 k = b.extractLsb' 0 k := by
  ext i hi
  simp [BitVec.getLsbD_append, show i < m by omega]

/-- The bits above the low field are those of the high field. -/
theorem above_of_append {n m : Nat} (j k : Nat) (a : BitVec n) (b : BitVec m) :
    (a ++ b).extractLsb' (m + j) k = a.extractLsb' j k := by
  ext i hi
  simp [BitVec.getLsbD_append, show ¬ m + j + i < m by omega, show m + j + i - m = j + i by omega]

/-- One bit above the low field is a bit of the high field. -/
theorem bit_above_of_append {n m : Nat} (j : Nat) (a : BitVec n) (b : BitVec m) :
    (a ++ b).getLsbD (m + j) = a.getLsbD j := by
  simp [BitVec.getLsbD_append]

/-- A word is its two fields put together. -/
theorem append_fields {n m : Nat} (w : BitVec (n + m)) : w.extractLsb' m n ++ w.extractLsb' 0 m = w := by
  ext i hi
  rw [BitVec.getElem_append]
  split
  · simp [BitVec.getLsbD_eq_getElem hi]
  · simp [show m + (i - m) = i by omega, BitVec.getLsbD_eq_getElem hi]

end Sys2Proof
end

