-- ==== Sys2Proof/Laws/Decode.lean ====
section
/-! SUPPORT. The small lemmas of the decoders and of the port inputs. -/

namespace Sys2Proof

@[simp] theorem PortInput.ofWord_rx (w : RxWord) : PortInput.ofWord (.rx w) = { rx := some w } := rfl
@[simp] theorem PortInput.ofWord_tx (w : TxWord) : PortInput.ofWord (.tx w) = { tx := some w } := rfl
@[simp] theorem PortInput.ofWord_pin (w : PinWord) : PortInput.ofWord (.pin w) = { reset := w } := rfl

/-- The ops of an input whose pin is at 1: the reset step, whatever the op words carry. -/
theorem PortInput.ops_reset (rx : Option RxWord) (tx : Option TxWord) : (PortInput.mk 1 rx tx).ops = [.reset] := rfl

/-- The ops of an input whose pin is at 0: those of the words offered. -/
theorem PortInput.ops_words (rx : Option RxWord) (tx : Option TxWord) :
    (PortInput.mk 0 rx tx).ops = (rx.map decodeRx).toList ++ (tx.map decodeTx).toList := rfl

/-- An input that is one word alone presents exactly the op the word decodes to. -/
theorem PortInput.ops_ofWord {p : PortWord} {i : Instr} (h : decode p = .ok i) : (PortInput.ofWord p).ops = [i] := by
  cases p with
  | rx w => cases h; rfl
  | tx w => cases h; rfl
  | pin w =>
    simp only [decode, decodePin] at h
    split at h
    · rename_i hw
      cases h
      subst hw
      rfl
    · cases h

/-- The RX decoder on a word put together from opcode and operand (R77, R78). -/
theorem decodeRx_mk (op : BitVec 2) (x : BitVec 8) :
    decodeRx (op ++ x) =
      if op = 0b00#2 then .rxNop else if op = 0b01#2 then .rxByte x else if op = 0b10#2 then .rxAbort
      else .rxClrf (x.extractLsb' 0 4) := by
  have h1 : BitVec.extractLsb' 8 2 (op ++ x : RxWord) = op := high_of_append op x
  have h2 : BitVec.extractLsb' 0 8 (op ++ x : RxWord) = x :=
    (low_of_append op x (Nat.le_refl 8)).trans (by simp)
  have h3 : BitVec.extractLsb' 0 4 (op ++ x : RxWord) = x.extractLsb' 0 4 := low_of_append op x (by omega)
  simp only [decodeRx, h1, h2, h3]

/-- The TX decoder on a word put together from opcode and operand (R79). -/
theorem decodeTx_mk (op : BitVec 2) (x : BitVec 16) :
    decodeTx (op ++ x) =
      if op = 0b00#2 then .txNop else if op = 0b01#2 then .txStart x
      else if op = 0b10#2 then .txByte (x.extractLsb' 0 8) else .txClrf (x.extractLsb' 0 1) := by
  have h1 : BitVec.extractLsb' 16 2 (op ++ x : TxWord) = op := high_of_append op x
  have h2 : BitVec.extractLsb' 0 16 (op ++ x : TxWord) = x :=
    (low_of_append op x (Nat.le_refl 16)).trans (by simp)
  have h3 : BitVec.extractLsb' 0 8 (op ++ x : TxWord) = x.extractLsb' 0 8 := low_of_append op x (by omega)
  have h4 : BitVec.extractLsb' 0 1 (op ++ x : TxWord) = x.extractLsb' 0 1 := low_of_append op x (by omega)
  simp only [decodeTx, h1, h2, h3, h4]

end Sys2Proof
end

