-- ==== Sys2Proof/Laws/Operands.lean ====
section
/-! SUPPORT. What the operand arithmetic is on numbers (40_envelope_functions.md R104), so that no later proof
looks inside a bit vector. -/

namespace Sys2Proof.Machine

/-- `{hi, lo} = 256 * hi + lo` (R72). -/
theorem lenOfBytes_toNat (hi lo : Byte) : (lenOfBytes hi lo).toNat = 256 * hi.toNat + lo.toNat := by
  have h : (lenOfBytes hi lo).toNat = hi.toNat <<< 8 ||| lo.toNat := BitVec.toNat_append hi lo
  rw [h, ← Nat.shiftLeft_add_eq_or_of_lt lo.isLt, Nat.shiftLeft_eq]
  omega

/-- `l[15:8] = l div 256` (R72). -/
theorem lenHigh_toNat (l : Len) : (lenHigh l).toNat = l.toNat / 256 := by
  have hl := l.isLt
  rw [lenHigh, BitVec.extractLsb'_toNat, Nat.shiftRight_eq_div_pow]
  omega

/-- `l[7:0] = l mod 256` (R72). -/
theorem lenLow_toNat (l : Len) : (lenLow l).toNat = l.toNat % 256 := by
  rw [lenLow, BitVec.extractLsb'_toNat, Nat.shiftRight_zero]

/-- The accumulator drops the carry (R101). -/
theorem addSum_toNat (s d : Byte) : (addSum s d).toNat = (s.toNat + d.toNat) % 256 := BitVec.toNat_add s d

/-- The final subtraction never borrows (R102). -/
theorem cksumOf_toNat (s : Byte) : (cksumOf s).toNat = 255 - s.toNat := by
  have hs := s.isLt
  rw [cksumOf, BitVec.toNat_sub]
  simp only [BitVec.toNat_ofNat]
  omega

/-- The two forms of a length, split and assembled, agree. -/
theorem lenOfBytes_split (l : Len) : lenOfBytes (lenHigh l) (lenLow l) = l := by
  apply BitVec.eq_of_toNat_eq
  rw [lenOfBytes_toNat, lenHigh_toNat, lenLow_toNat]
  omega

theorem lenLow_lenOfBytes (hi lo : Byte) : lenLow (lenOfBytes hi lo) = lo := by
  have := lo.isLt
  apply BitVec.eq_of_toNat_eq
  rw [lenLow_toNat, lenOfBytes_toNat]
  omega

theorem lenHigh_lenOfBytes (hi lo : Byte) : lenHigh (lenOfBytes hi lo) = hi := by
  have := lo.isLt
  apply BitVec.eq_of_toNat_eq
  rw [lenHigh_toNat, lenOfBytes_toNat]
  omega

end Sys2Proof.Machine
end

