-- ==== Sys2Proof/Laws/Envelope.lean ====
section
/-! SUPPORT. The small lemmas of the envelope functions. -/

namespace Sys2Proof.Machine

@[simp] theorem acc_nil : acc [] = 0 := rfl

/-- The accumulator takes one more byte (R101). -/
theorem acc_snoc (s : List Byte) (b : Byte) : acc (s ++ [b]) = addSum (acc s) b := by
  simp [acc, addSum]

@[simp] theorem byteSum_nil : byteSum [] = 0 := rfl

@[simp] theorem byteSum_cons (b : Byte) (s : List Byte) : byteSum (b :: s) = b.toNat + byteSum s := by
  simp [byteSum]

@[simp] theorem byteSum_append (s t : List Byte) : byteSum (s ++ t) = byteSum s + byteSum t := by
  simp [byteSum]

/-- The checksum as a number: the subtraction does not borrow (R100, R102). -/
theorem checksum_toNat (s : List Byte) : (checksum s).toNat = 255 - byteSum s % 256 := by
  rw [checksum, BitVec.toNat_ofNat]
  omega

/-- `|frame(P)| = N + 4` (R105). -/
@[simp] theorem envelope_length (p : Params) (s : List Byte) : (envelope p s).length = s.length + 4 := by
  simp [envelope]

theorem frame_of_le (p : Params) {s : List Byte} (h : s.length ≤ 65535) : frame p s = .ok (envelope p s) := if_pos h

theorem frame_of_gt (p : Params) {s : List Byte} (h : 65535 < s.length) : frame p s = .error .payloadTooLong :=
  if_neg (Nat.not_le.mpr h)

/-- What the two length bytes of an envelope assemble to (R72, R110). -/
theorem length_bytes (n : Nat) (h : n ≤ 65535) :
    256 * (BitVec.ofNat 8 (n / 256)).toNat + (BitVec.ofNat 8 (n % 256)).toNat = n := by
  simp only [BitVec.toNat_ofNat]
  omega

@[simp] theorem unframe_nil (p : Params) : unframe p [] = .incomplete := rfl

theorem unframe_of_ne (p : Params) {b : Byte} (w : List Byte) (h : b ≠ p.startDelim) :
    unframe p (b :: w) = .badDelimiter w := by
  simp [unframe, h]

@[simp] theorem unframe_one (p : Params) : unframe p [p.startDelim] = .incomplete := by
  simp [unframe]

@[simp] theorem unframe_two (p : Params) (hi : Byte) : unframe p [p.startDelim, hi] = .incomplete := by
  simp [unframe]

/-- An envelope whose two length bytes are there (R107). -/
theorem unframe_of_header (p : Params) (hi lo : Byte) (body : List Byte) :
    unframe p (p.startDelim :: hi :: lo :: body) =
      if p.maxPayload.val < 256 * hi.toNat + lo.toNat then .overlen (256 * hi.toNat + lo.toNat) body
      else
        match body.drop (256 * hi.toNat + lo.toNat) with
        | [] => .incomplete
        | c :: rest =>
          if c = checksum (body.take (256 * hi.toNat + lo.toNat)) then
            .ok (body.take (256 * hi.toNat + lo.toNat)) rest
          else .checksumError rest := by
  exact if_neg (not_not_intro rfl)

end Sys2Proof.Machine
end

