-- ==== Sys2Proof/Laws/Memory.lean ====
section
/-! SUPPORT. The laws of the byte memory: a read after a write gives the byte written, a write leaves every other
address alone, and every operation keeps the canonical form. -/

namespace Sys2Proof.Machine

@[simp] theorem Memory.read_nil (a : Nat) : Memory.read [] a = none := rfl

theorem Memory.read_cons (k : Nat) (b : Byte) (m : Memory) (a : Nat) :
    Memory.read ((k, b) :: m) a = if k = a then some b else Memory.read m a := rfl

theorem Memory.wf_nil : Memory.wf [] := List.Pairwise.nil

/-- A read after a write to the same address gives the byte written. -/
@[simp] theorem Memory.read_write_same (m : Memory) (a : Nat) (b : Byte) :
    Memory.read (Memory.write m a b) a = some b := by
  induction m with
  | nil => simp [Memory.write, Memory.read]
  | cons c m ih =>
    obtain ⟨k, x⟩ := c
    rw [Memory.write]
    split
    · simp [Memory.read]
    · split
      · simp [Memory.read]
      · rename_i _ hne
        rw [Memory.read_cons, if_neg (Ne.symm hne), ih]

/-- A write leaves every other address alone. -/
theorem Memory.read_write_other (m : Memory) {a a' : Nat} (b : Byte) (h : a' ≠ a) :
    Memory.read (Memory.write m a b) a' = Memory.read m a' := by
  induction m with
  | nil => simp [Memory.write, Memory.read, Ne.symm h]
  | cons c m ih =>
    obtain ⟨k, x⟩ := c
    rw [Memory.write]
    split
    · rw [Memory.read_cons, if_neg (Ne.symm h)]
    · split
      · rename_i _ he
        subst he
        simp [Memory.read, Ne.symm h]
      · rw [Memory.read_cons, Memory.read_cons, ih]

/-- The cells of a written memory are the written one and cells that were there. -/
theorem Memory.mem_write {m : Memory} {a : Nat} {b : Byte} {c : Host.Cell} (h : c ∈ Memory.write m a b) :
    c = (a, b) ∨ c ∈ m := by
  induction m with
  | nil => simpa [Memory.write] using h
  | cons d m ih =>
    obtain ⟨k, x⟩ := d
    rw [Memory.write] at h
    split at h
    · simpa using h
    · split at h
      · rcases List.mem_cons.mp h with h | h
        · exact .inl h
        · exact .inr (List.mem_cons_of_mem _ h)
      · rcases List.mem_cons.mp h with h | h
        · exact .inr (h ▸ List.mem_cons_self)
        · exact (ih h).imp_right (List.mem_cons_of_mem _)

/-- A write keeps the canonical form. -/
theorem Memory.write_wf {m : Memory} (a : Nat) (b : Byte) (h : Memory.wf m) : Memory.wf (Memory.write m a b) := by
  induction m with
  | nil => exact List.pairwise_singleton _ _
  | cons c m ih =>
    obtain ⟨k, x⟩ := c
    obtain ⟨hk, hm⟩ := List.pairwise_cons.mp h
    rw [Memory.write]
    split
    · rename_i hlt
      refine List.pairwise_cons.mpr ⟨fun d hd => ?_, h⟩
      rcases List.mem_cons.mp hd with rfl | hd
      · exact hlt
      · exact Nat.lt_trans hlt (hk d hd)
    · split
      · rename_i _ he
        subst he
        exact List.pairwise_cons.mpr ⟨hk, hm⟩
      · rename_i hlt hne
        refine List.pairwise_cons.mpr ⟨fun d hd => ?_, ih hm⟩
        rcases Memory.mem_write hd with rfl | hd
        · exact Nat.lt_of_le_of_ne (Nat.le_of_not_lt hlt) (Ne.symm hne)
        · exact hk d hd

/-- A write inside a bound keeps the addresses inside it. -/
theorem Memory.write_bounded {m : Memory} {a n : Nat} (b : Byte) (ha : a < n) (h : ∀ c ∈ m, c.1 < n) :
    ∀ c ∈ Memory.write m a b, c.1 < n := by
  intro c hc
  rcases Memory.mem_write hc with rfl | hc
  · exact ha
  · exact h c hc

@[simp] theorem Memory.readRange_zero (m : Memory) (a : Nat) : Memory.readRange m a 0 = some [] := rfl

theorem Memory.readRange_succ (m : Memory) (a n : Nat) :
    Memory.readRange m a (n + 1) =
      (Memory.read m a).bind fun b => (Memory.readRange m (a + 1) n).map (b :: ·) := by
  rw [Memory.readRange]
  cases Memory.read m a <;> cases Memory.readRange m (a + 1) n <;> rfl

/-- A range read at its end: the last byte comes last. -/
theorem Memory.readRange_snoc (m : Memory) (a n : Nat) :
    Memory.readRange m a (n + 1) =
      (Memory.readRange m a n).bind fun bs => (Memory.read m (a + n)).map (bs ++ [·]) := by
  induction n generalizing a with
  | zero => rw [Memory.readRange_succ]; cases h : Memory.read m a <;> simp
  | succ n ih =>
    rw [Memory.readRange_succ, ih (a + 1), Memory.readRange_succ]
    rw [show a + 1 + n = a + (n + 1) by omega]
    cases Memory.read m a <;> cases Memory.readRange m (a + 1) n <;> cases Memory.read m (a + (n + 1)) <;> rfl

/-- A range read gives as many bytes as asked for. -/
theorem Memory.readRange_length {m : Memory} {a n : Nat} {bs : List Byte} (h : Memory.readRange m a n = some bs) :
    bs.length = n := by
  induction n generalizing a bs with
  | zero => simp_all
  | succ n ih =>
    rw [Memory.readRange_succ] at h
    simp only [Option.bind_eq_some_iff, Option.map_eq_some_iff] at h
    obtain ⟨b, -, bs', h', rfl⟩ := h
    simp [ih h']

/-- A range below a written address reads as before. -/
theorem Memory.readRange_write_above (m : Memory) {a n k : Nat} (b : Byte) (h : a + n ≤ k) :
    Memory.readRange (Memory.write m k b) a n = Memory.readRange m a n := by
  induction n generalizing a with
  | zero => rfl
  | succ n ih =>
    rw [Memory.readRange_succ, Memory.readRange_succ, Memory.read_write_other _ _ (by omega), ih (by omega)]

/-- Storing at the end of a range makes it one byte longer. -/
theorem Memory.readRange_write_end (m : Memory) (a n : Nat) (b : Byte) :
    Memory.readRange (Memory.write m (a + n) b) a (n + 1) = (Memory.readRange m a n).map (· ++ [b]) := by
  rw [Memory.readRange_snoc, Memory.readRange_write_above _ _ (Nat.le_refl _), Memory.read_write_same]
  cases Memory.readRange m a n <;> rfl

end Sys2Proof.Machine
end

