-- ==== Sys2Proof/Laws/State.lean ====
section
/-! SUPPORT. One lemma per field per update of the state, so that no later proof unfolds a record update. -/

namespace Sys2Proof.Machine

/-! ### The machine after a step of the RX path -/

@[simp] theorem State.withRx_params (s : State) (res : RxResult) : (s.withRx res).params = s.params := rfl
@[simp] theorem State.withRx_rx (s : State) (res : RxResult) : (s.withRx res).rx = res.rx := rfl
@[simp] theorem State.withRx_tx (s : State) (res : RxResult) : (s.withRx res).tx = s.tx := rfl
@[simp] theorem State.withRx_rxEvent (s : State) (res : RxResult) : (s.withRx res).rxEvent = res.ev := rfl
@[simp] theorem State.withRx_txOut (s : State) (res : RxResult) : (s.withRx res).txOut = s.txOut := rfl
@[simp] theorem State.withRx_txEvent (s : State) (res : RxResult) : (s.withRx res).txEvent = s.txEvent := rfl
@[simp] theorem State.withRx_inputs (s : State) (res : RxResult) : (s.withRx res).inputs = s.inputs := rfl
@[simp] theorem State.withRx_wireOut (s : State) (res : RxResult) : (s.withRx res).wireOut = s.wireOut := rfl
@[simp] theorem State.withRx_delivered (s : State) (res : RxResult) : (s.withRx res).delivered = s.delivered ++ res.ev.onChannel := rfl

/-! ### The machine after a step of the TX path -/

@[simp] theorem State.withTx_params (s : State) (res : TxResult) : (s.withTx res).params = s.params := rfl
@[simp] theorem State.withTx_rx (s : State) (res : TxResult) : (s.withTx res).rx = s.rx := rfl
@[simp] theorem State.withTx_tx (s : State) (res : TxResult) : (s.withTx res).tx = res.tx := rfl
@[simp] theorem State.withTx_rxEvent (s : State) (res : TxResult) : (s.withTx res).rxEvent = s.rxEvent := rfl
@[simp] theorem State.withTx_txOut (s : State) (res : TxResult) : (s.withTx res).txOut = res.out := rfl
@[simp] theorem State.withTx_txEvent (s : State) (res : TxResult) : (s.withTx res).txEvent = res.ev := rfl
@[simp] theorem State.withTx_inputs (s : State) (res : TxResult) : (s.withTx res).inputs = s.inputs := rfl
@[simp] theorem State.withTx_wireOut (s : State) (res : TxResult) : (s.withTx res).wireOut = s.wireOut ++ res.out := rfl
@[simp] theorem State.withTx_delivered (s : State) (res : TxResult) : (s.withTx res).delivered = s.delivered := rfl

/-! ### Closing an envelope and raising an event -/

@[simp] theorem closeRx_state (r : RxState) : (closeRx r).state = .hunt := rfl
@[simp] theorem closeRx_len (r : RxState) : (closeRx r).len = 0 := rfl
@[simp] theorem closeRx_cnt (r : RxState) : (closeRx r).cnt = 0 := rfl
@[simp] theorem closeRx_sum (r : RxState) : (closeRx r).sum = 0 := rfl
@[simp] theorem closeRx_flags (r : RxState) : (closeRx r).flags = r.flags := rfl
@[simp] theorem closeRx_buf (r : RxState) : (closeRx r).buf = r.buf := rfl
@[simp] theorem closeTx_state (t : TxState) : (closeTx t).state = .idle := rfl
@[simp] theorem closeTx_len (t : TxState) : (closeTx t).len = 0 := rfl
@[simp] theorem closeTx_cnt (t : TxState) : (closeTx t).cnt = 0 := rfl
@[simp] theorem closeTx_sum (t : TxState) : (closeTx t).sum = 0 := rfl
@[simp] theorem closeTx_flags (t : TxState) : (closeTx t).flags = t.flags := rfl
@[simp] theorem quietRx_rx (r : RxState) : (quietRx r).rx = r := rfl
@[simp] theorem quietRx_ev (r : RxState) : (quietRx r).ev = .none := rfl
@[simp] theorem quietTx_tx (t : TxState) : (quietTx t).tx = t := rfl
@[simp] theorem quietTx_out (t : TxState) : (quietTx t).out = [] := rfl
@[simp] theorem quietTx_ev (t : TxState) : (quietTx t).ev = .none := rfl
@[simp] theorem raiseRx_state (r : RxState) (e : RxEvent) : (raiseRx r e).rx.state = r.state := rfl
@[simp] theorem raiseRx_len (r : RxState) (e : RxEvent) : (raiseRx r e).rx.len = r.len := rfl
@[simp] theorem raiseRx_cnt (r : RxState) (e : RxEvent) : (raiseRx r e).rx.cnt = r.cnt := rfl
@[simp] theorem raiseRx_sum (r : RxState) (e : RxEvent) : (raiseRx r e).rx.sum = r.sum := rfl
@[simp] theorem raiseRx_flags (r : RxState) (e : RxEvent) : (raiseRx r e).rx.flags = setFlags r.flags e.flag := rfl
@[simp] theorem raiseRx_buf (r : RxState) (e : RxEvent) : (raiseRx r e).rx.buf = r.buf := rfl
@[simp] theorem raiseRx_ev (r : RxState) (e : RxEvent) : (raiseRx r e).ev = e := rfl
@[simp] theorem raiseTx_state (t : TxState) (e : TxEvent) : (raiseTx t e).tx.state = t.state := rfl
@[simp] theorem raiseTx_len (t : TxState) (e : TxEvent) : (raiseTx t e).tx.len = t.len := rfl
@[simp] theorem raiseTx_cnt (t : TxState) (e : TxEvent) : (raiseTx t e).tx.cnt = t.cnt := rfl
@[simp] theorem raiseTx_sum (t : TxState) (e : TxEvent) : (raiseTx t e).tx.sum = t.sum := rfl
@[simp] theorem raiseTx_flags (t : TxState) (e : TxEvent) : (raiseTx t e).tx.flags = setFlags t.flags e.flag := rfl
@[simp] theorem raiseTx_out (t : TxState) (e : TxEvent) : (raiseTx t e).out = [] := rfl
@[simp] theorem raiseTx_ev (t : TxState) (e : TxEvent) : (raiseTx t e).ev = e := rfl

/-! ### Views and what depends on the buffer and the count alone -/

@[simp] theorem RxState.view_state (r : RxState) : r.view.state = r.state := rfl
@[simp] theorem RxState.view_len (r : RxState) : r.view.len = r.len := rfl
@[simp] theorem RxState.view_cnt (r : RxState) : r.view.cnt = r.cnt := rfl
@[simp] theorem RxState.view_sum (r : RxState) : r.view.sum = r.sum := rfl
@[simp] theorem TxState.view_state (t : TxState) : t.view.state = t.state := rfl
@[simp] theorem TxState.view_len (t : TxState) : t.view.len = t.len := rfl
@[simp] theorem TxState.view_cnt (t : TxState) : t.view.cnt = t.cnt := rfl
@[simp] theorem TxState.view_sum (t : TxState) : t.view.sum = t.sum := rfl

end Sys2Proof.Machine
end

