-- ==== Sys2Proof/Laws/Ops.lean ====
section
/-! SUPPORT. One lemma for each shared operation that says once everything it can do. -/

namespace Sys2Proof.Machine

/-- A store is done exactly at an index of the buffer, and then it is the write (R8, R51). -/
theorem memWrite_eq_ok {p : Params} {r w : RxState} {a : Nat} {b : Byte} :
    memWrite p r a b = .ok w ↔ a < p.maxPayload.val ∧ w = { r with buf := Memory.write r.buf a b } := by
  unfold memWrite
  split <;> simp_all [eq_comm]

/-- A read is done exactly when every byte asked for is one of this envelope's (R8, R26). -/
theorem memRead_eq_ok {r : RxState} {a n : Nat} {bs : List Byte} :
    memRead r a n = .ok bs ↔ a + n ≤ r.cnt.toNat ∧ Memory.readRange r.buf a n = some bs := by
  unfold memRead
  split
  · cases Memory.readRange r.buf a n <;> simp_all
  · simp_all

/-- A step of the RX path ends in a next state exactly when its rule gives a result, and then that is put in
place. -/
theorem finishRx_eq_next {s t : State} {res : Except Fault RxResult} :
    finishRx s res = .next t ↔ ∃ r, res = .ok r ∧ t = s.withRx r := by
  cases res <;> simp [finishRx, eq_comm]

theorem finishRx_not_refused {s : State} {res : Except Fault RxResult} {x : Refusal} :
    finishRx s res ≠ .refused x := by
  cases res <;> simp [finishRx]

@[simp] theorem finishRx_ok (s : State) (r : RxResult) : finishRx s (.ok r) = .next (s.withRx r) := rfl
@[simp] theorem finishRx_error (s : State) (f : Fault) : finishRx s (.error f) = .fault f := rfl
@[simp] theorem finishTx_eq (s : State) (r : TxResult) : finishTx s r = .next (s.withTx r) := rfl

@[simp] theorem RxEvent.onChannel_none : RxEvent.onChannel .none = [] := rfl

/-- An event other than NONE goes to the channel as it is. -/
theorem RxEvent.onChannel_of_ne {e : RxEvent} (h : e ≠ .none) : e.onChannel = [e] := by
  cases e <;> first | exact absurd rfl h | rfl

@[simp] theorem raiseRx_rx (r : RxState) (e : RxEvent) :
    (raiseRx r e).rx = { r with flags := setFlags r.flags e.flag } := rfl

/-- The next input is the head of the environment's list. -/
theorem State.nextInput_cons {s : State} {i : PortInput} {rest : List PortInput} (h : s.inputs = i :: rest) :
    s.nextInput = some (i, { s with inputs := rest }) := by
  simp [State.nextInput, h]

theorem State.nextInput_nil {s : State} (h : s.inputs = []) : s.nextInput = none := by
  simp [State.nextInput, h]

end Sys2Proof.Machine
end

