-- ==== Sys2Proof/Laws/Paths.lean ====
section
/-! SUPPORT. `exec` as the two step functions of 00_scope.md R9: every op of a path is that path's step function on
that path's state, put back into the machine. What one step can do is said here once, row by row of the transition
tables (42_rx_unframer.md R155, 41_tx_framer.md R126). -/

namespace Sys2Proof.Machine

/-- `rx_step` (R9, R140): the result of an RX op; an op of another input has none. -/
def rxStep (p : Params) (r : RxState) : Instr → Option (Except Fault RxResult)
  | .rxNop => some (.ok (quietRx r))
  | .rxByte d => some (rxByte p r d)
  | .rxAbort => some (.ok (rxAbort r))
  | .rxClrf m => some (.ok (quietRx { r with flags := clearFlags r.flags m }))
  | .txNop => none
  | .txStart _ => none
  | .txByte _ => none
  | .txClrf _ => none
  | .reset => none

/-- `tx_step` (R9, R120): the result of a TX op; an op of another input has none. -/
def txStep (p : Params) (t : TxState) : Instr → Option TxResult
  | .rxNop => none
  | .rxByte _ => none
  | .rxAbort => none
  | .rxClrf _ => none
  | .txNop => some (quietTx t)
  | .txStart l => some (txStart p t l)
  | .txByte d => some (txByte t d)
  | .txClrf m => some (quietTx { t with flags := clearFlags t.flags m })
  | .reset => none

/-- Every op is a step of the RX path, a step of the TX path, or the reset step. -/
theorem exec_cases (i : Instr) (s : State) :
    (i.port = .rx ∧ ∃ res, rxStep s.params s.rx i = some res ∧ exec i s = finishRx s res) ∨
    (i.port = .tx ∧ ∃ res, txStep s.params s.tx i = some res ∧ exec i s = .next (s.withTx res)) ∨
    (i = .reset ∧ exec i s = execReset s) := by
  cases i
  case rxNop => exact .inl ⟨rfl, _, rfl, rfl⟩
  case rxByte d => exact .inl ⟨rfl, _, rfl, rfl⟩
  case rxAbort => exact .inl ⟨rfl, _, rfl, rfl⟩
  case rxClrf m => exact .inl ⟨rfl, _, rfl, rfl⟩
  case txNop => exact .inr (.inl ⟨rfl, _, rfl, rfl⟩)
  case txStart l => exact .inr (.inl ⟨rfl, _, rfl, rfl⟩)
  case txByte d => exact .inr (.inl ⟨rfl, _, rfl, rfl⟩)
  case txClrf m => exact .inr (.inl ⟨rfl, _, rfl, rfl⟩)
  case reset => exact .inr (.inr ⟨rfl, rfl⟩)

/-- What an op's next state can be. -/
theorem exec_next_cases {i : Instr} {s t : State} (h : exec i s = .next t) :
    (i.port = .rx ∧ ∃ res, rxStep s.params s.rx i = some (.ok res) ∧ t = s.withRx res) ∨
    (i.port = .tx ∧ ∃ res, txStep s.params s.tx i = some res ∧ t = s.withTx res) ∨
    (i = .reset ∧
      t = { s with rx := .reset, tx := .reset, rxEvent := .none, txOut := [], txEvent := .none }) := by
  rcases exec_cases i s with ⟨hp, res, hres, he⟩ | ⟨hp, res, hres, he⟩ | ⟨hi, he⟩
  · rw [he, finishRx_eq_next] at h
    obtain ⟨r, rfl, ht⟩ := h
    exact .inl ⟨hp, r, hres, ht⟩
  · rw [he] at h
    cases h
    exact .inr (.inl ⟨hp, res, hres, rfl⟩)
  · rw [he, execReset] at h
    cases h
    exact .inr (.inr ⟨hi, rfl⟩)

/-- An op neither reads nor writes what is still to be presented. -/
theorem exec_inputs (i : Instr) (s : State) (inputs : List PortInput) :
    exec i { s with inputs := inputs } =
      match exec i s with
      | .next t => .next { t with inputs := inputs }
      | .fault f => .fault f
      | .refused r => .refused r := by
  cases i
  case rxNop => rfl
  case rxByte d =>
    simp only [exec, execRxByte]
    cases rxByte s.params s.rx d <;> rfl
  case rxAbort => rfl
  case rxClrf m => rfl
  case txNop => rfl
  case txStart l => rfl
  case txByte d => rfl
  case txClrf m => rfl
  case reset => rfl

/-- No op is refused: every arm of `exec` has a meaning. -/
theorem exec_not_refused (i : Instr) (s : State) (x : Refusal) : exec i s ≠ .refused x := by
  rcases exec_cases i s with ⟨-, res, -, he⟩ | ⟨-, res, -, he⟩ | ⟨-, he⟩ <;> rw [he]
  · exact finishRx_not_refused
  · simp
  · simp [execReset]

/-- The rows of R155 for `RX_BYTE`: everything a byte can do, by the state that consumes it. -/
theorem rxByte_cases {p : Params} {r : RxState} {d : Byte} {res : RxResult} (h : rxByte p r d = .ok res) :
    (r.state = .hunt ∧ d = p.startDelim ∧ res = quietRx { r with state := .lenHi }) ∨
    (r.state = .hunt ∧ d ≠ p.startDelim ∧ res = raiseRx r (.badDelim p.startDelim d)) ∨
    (r.state = .lenHi ∧ res = quietRx { r with len := lenOfBytes d 0, state := .lenLo }) ∨
    (r.state = .lenLo ∧ p.maxPayload.val < (lenOfBytes (lenHigh r.len) d).toNat ∧
      res = raiseRx (closeRx r) (.overlen (lenOfBytes (lenHigh r.len) d))) ∨
    (r.state = .lenLo ∧ lenOfBytes (lenHigh r.len) d = 0#16 ∧ res = quietRx { r with len := 0, state := .cksum }) ∨
    (r.state = .lenLo ∧ (lenOfBytes (lenHigh r.len) d).toNat ≤ p.maxPayload.val ∧
      lenOfBytes (lenHigh r.len) d ≠ 0#16 ∧
      res = quietRx { r with len := lenOfBytes (lenHigh r.len) d, state := .payload }) ∨
    (r.state = .payload ∧ r.cnt.toNat < p.maxPayload.val ∧
      res = quietRx
        { state := if r.cnt.toNat + 1 = r.len.toNat then .cksum else .payload, len := r.len, cnt := r.cnt + 1,
          sum := addSum r.sum d, flags := r.flags, buf := Memory.write r.buf r.cnt.toNat d }) ∨
    (r.state = .cksum ∧ d = cksumOf r.sum ∧ ∃ payload, memRead r 0 r.len.toNat = .ok payload ∧
      res = { rx := closeRx r, ev := .frameOk r.len (cksumOf r.sum) d payload }) ∨
    (r.state = .cksum ∧ d ≠ cksumOf r.sum ∧ res = raiseRx (closeRx r) (.cksumErr r.len (cksumOf r.sum) d)) := by
  unfold rxByte at h
  split at h <;> rename_i hs
  · cases h
    by_cases hd : d = p.startDelim
    · exact .inl ⟨hs, hd, by rw [rxByteHunt, if_pos hd]⟩
    · exact .inr (.inl ⟨hs, hd, by rw [rxByteHunt, if_neg hd]⟩)
  · cases h
    exact .inr (.inr (.inl ⟨hs, rfl⟩))
  · cases h
    by_cases h1 : p.maxPayload.val < (lenOfBytes (lenHigh r.len) d).toNat
    · exact .inr (.inr (.inr (.inl ⟨hs, h1, by simp only [rxByteLenLo, if_pos h1]⟩)))
    · by_cases h2 : lenOfBytes (lenHigh r.len) d = 0#16
      · exact .inr (.inr (.inr (.inr (.inl ⟨hs, h2, by simp only [rxByteLenLo, if_neg h1, if_pos h2]⟩))))
      · exact .inr (.inr (.inr (.inr (.inr (.inl
          ⟨hs, Nat.le_of_not_lt h1, h2, by simp only [rxByteLenLo, if_neg h1, if_neg h2]⟩)))))
  · unfold rxBytePayload at h
    split at h
    · rename_i w hw
      cases h
      obtain ⟨hlt, rfl⟩ := memWrite_eq_ok.mp hw
      exact .inr (.inr (.inr (.inr (.inr (.inr (.inl ⟨hs, hlt, rfl⟩))))))
    · cases h
  · simp only [rxByteCksum] at h
    split at h
    · rename_i hd
      split at h
      · rename_i payload hm
        cases h
        exact .inr (.inr (.inr (.inr (.inr (.inr (.inr (.inl ⟨hs, hd, payload, hm, rfl⟩)))))))
      · cases h
    · rename_i hd
      cases h
      exact .inr (.inr (.inr (.inr (.inr (.inr (.inr (.inr ⟨hs, hd, rfl⟩)))))))

/-- The rows of R126 for `TX_START`. -/
theorem txStart_cases (p : Params) (t : TxState) (l : Len) :
    (t.state = .idle ∧ l = 0#16 ∧
      txStart p t l = { tx := t, out := [p.startDelim, 0x00, 0x00, 0xFF], ev := .frameDone }) ∨
    (t.state = .idle ∧ l ≠ 0#16 ∧
      txStart p t l = { tx := { t with len := l, cnt := 0, sum := 0, state := .body }, out := header p l, ev := .none }) ∨
    (t.state = .body ∧ txStart p t l = raiseTx t .seqErr) := by
  unfold txStart
  split <;> rename_i hs
  · split <;> rename_i hl
    · exact .inl ⟨hs, hl, rfl⟩
    · exact .inr (.inl ⟨hs, hl, rfl⟩)
  · exact .inr (.inr ⟨hs, rfl⟩)

/-- The rows of R126 for `TX_BYTE`. -/
theorem txByte_cases (t : TxState) (d : Byte) :
    (t.state = .body ∧ t.cnt.toNat + 1 = t.len.toNat ∧
      txByte t d = { tx := closeTx t, out := [d, cksumOf (addSum t.sum d)], ev := .frameDone }) ∨
    (t.state = .body ∧ t.cnt.toNat + 1 ≠ t.len.toNat ∧
      txByte t d = { tx := { t with sum := addSum t.sum d, cnt := t.cnt + 1 }, out := [d], ev := .none }) ∨
    (t.state = .idle ∧ txByte t d = raiseTx t .seqErr) := by
  unfold txByte
  split <;> rename_i hs
  · by_cases hc : t.cnt.toNat + 1 = t.len.toNat
    · exact .inl ⟨hs, hc, by simp only [if_pos hc]⟩
    · exact .inr (.inl ⟨hs, hc, by simp only [if_neg hc]⟩)
  · exact .inr (.inr ⟨hs, rfl⟩)

end Sys2Proof.Machine
end

