-- ==== Sys2Proof/Laws/PerInstr.lean ====
section
/-! SUPPORT. The statements made per instruction. Family OwnRow: the word of an instruction is claimed by the row
of the op table that bears the instruction's mnemonic and by no other (30_encoding.md R78, R79, R84). -/

namespace Sys2Proof.Laws

/-- What masking a word to its opcode field leaves. -/
theorem opcode_of_append {n m : Nat} (op : BitVec n) (x : BitVec m) :
    (op ++ x) &&& (BitVec.allOnes n ++ 0#m) = op ++ 0#m := by
  ext i hi
  simp only [BitVec.getElem_and, BitVec.getElem_append]
  split <;> simp

/-- Which rows claim an RX word, by its opcode. -/
theorem rxRows_claiming (op : BitVec 2) (x : BitVec 8) :
    (rxRows.filter (·.claims (op ++ x : RxWord))).map (·.mnemonic) =
      (rxRows.filter (·.claims (op ++ 0#8 : RxWord))).map (·.mnemonic) := by
  have h (y : BitVec 8) : (op ++ y : RxWord) &&& BitVec.ofNat 10 0x300 = op ++ 0#8 := opcode_of_append op y
  simp only [rxRows, OpRow.claims, List.filter, h]

/-- Which rows claim a TX word, by its opcode. -/
theorem txRows_claiming (op : BitVec 2) (x : BitVec 16) :
    (txRows.filter (·.claims (op ++ x : TxWord))).map (·.mnemonic) =
      (txRows.filter (·.claims (op ++ 0#16 : TxWord))).map (·.mnemonic) := by
  have h (y : BitVec 16) : (op ++ y : TxWord) &&& BitVec.ofNat 18 0x30000 = op ++ 0#16 := opcode_of_append op y
  simp only [txRows, OpRow.claims, List.filter, h]

namespace OwnRow

/-- The word of `i` is claimed by exactly the row of `i`. -/
def Statement (i : Instr) : Prop :=
  match encode i with
  | .rx w => (rxRows.filter (·.claims w)).map (·.mnemonic) = [i.mnemonic]
  | .tx w => (txRows.filter (·.claims w)).map (·.mnemonic) = [i.mnemonic]
  | .pin w => w = 1#1 ∧ i.mnemonic = "RESET"

theorem rxNop : Statement .rxNop := by rfl

theorem rxByte (d : Byte) : Statement (.rxByte d) := (rxRows_claiming 0b01#2 d).trans rfl

theorem rxAbort : Statement .rxAbort := by rfl

theorem rxClrf (m : BitVec 4) : Statement (.rxClrf m) := (rxRows_claiming 0b11#2 (0#4 ++ m)).trans rfl

theorem txNop : Statement .txNop := by rfl

theorem txStart (l : Len) : Statement (.txStart l) := (txRows_claiming 0b01#2 l).trans rfl

theorem txByte (d : Byte) : Statement (.txByte d) := (txRows_claiming 0b10#2 (0#8 ++ d)).trans rfl

theorem txClrf (m : BitVec 1) : Statement (.txClrf m) := (txRows_claiming 0b11#2 (0#15 ++ m)).trans rfl

theorem reset : Statement .reset := ⟨rfl, rfl⟩

end OwnRow

end Sys2Proof.Laws
end

