-- ==== Sys2Proof/Laws/Safety.lean ====
section
/-! SUPPORT. What the invariants say of the buffer and of the outbound stream. -/

namespace Sys2Proof.Machine

/-- A closed RX control state meets every row of R27 whatever its flags and its stale cells. -/
theorem RxInv.of_closed {p : Params} {r : RxState} (hs : r.state = .hunt) (hl : r.len = 0) (hc : r.cnt = 0)
    (hm : r.sum = 0) (hw : Memory.wf r.buf) (hb : ∀ c ∈ r.buf, c.1 < p.maxPayload.val) : RxInv p r := by
  refine ⟨fun _ => ⟨hl, hc, hm⟩, ?_, ?_, ?_, ?_, hw, hb⟩
  · simp [hs]
  · simp [hs]
  · simp [hs]
  · simp [RxState.collected, hc, hm]

/-- The bytes collected are `rx.cnt` many. -/
theorem RxState.collected_length {r : RxState} {bs : List Byte} (h : r.collected = some bs) :
    bs.length = r.cnt.toNat :=
  Memory.readRange_length h

/-- Under the invariants the collected bytes are there, and `rx.sum` is their accumulator (R24). -/
theorem RxInv.collected {p : Params} {r : RxState} (h : RxInv p r) :
    ∃ bs, r.collected = some bs ∧ acc bs = r.sum := by
  obtain ⟨-, -, -, -, hc, -⟩ := h
  simpa [Option.map_eq_some_iff] using hc

/-- The last bytes of a stream that just grew by fewer than asked for. -/
theorem lastBytes_append {n : Nat} (w out : List Byte) (h : out.length ≤ n) :
    lastBytes n (w ++ out) = lastBytes (n - out.length) w ++ out := by
  simp only [lastBytes, List.length_append]
  rw [List.drop_append_of_le_length (by omega)]
  congr 2
  omega

theorem lastBytes_length_of_le {n : Nat} {w : List Byte} (h : n ≤ w.length) : (lastBytes n w).length = n := by
  simp only [lastBytes, List.length_drop]
  omega

end Sys2Proof.Machine
end

