-- ==== Sys2Proof/Laws/Step.lean ====
section
/-! SUPPORT. What a step can do, and how runs of ops compose. -/

namespace Sys2Proof.Machine

@[simp] theorem execAll_nil (s : State) : execAll [] s = .next s := rfl

/-- A run begins with its first op. -/
theorem execAll_cons_of_next {i : Instr} {is : List Instr} {s t : State} (h : exec i s = .next t) :
    execAll (i :: is) s = execAll is t := by
  simp [execAll, h]

/-- A run of one op is the op. -/
@[simp] theorem execAll_singleton (i : Instr) (s : State) : execAll [i] s = exec i s := by
  simp only [execAll]
  cases exec i s <;> rfl

/-- A run that ends in a next state passes through the state after its first op. -/
theorem execAll_cons_next {i : Instr} {is : List Instr} {s u : State} (h : execAll (i :: is) s = .next u) :
    ∃ t, exec i s = .next t ∧ execAll is t = .next u := by
  rw [execAll] at h
  split at h
  · exact ⟨_, ‹_›, h⟩
  · cases h
  · cases h

/-- Runs compose. -/
theorem execAll_append_of_next {is js : List Instr} {s t : State} (h : execAll is s = .next t) :
    execAll (is ++ js) s = execAll js t := by
  induction is generalizing s with
  | nil => cases h; rfl
  | cons i is ih =>
    obtain ⟨u, hu, hr⟩ := execAll_cons_next h
    rw [List.cons_append, execAll_cons_of_next hu, ih hr]

/-- A step takes the next input and runs its ops; without one nothing happens. -/
theorem step_cons {s : State} {i : PortInput} {rest : List PortInput} (h : s.inputs = i :: rest) :
    step s = execAll i.ops { s with inputs := rest } := by
  simp [step, State.nextInput_cons h]

theorem step_nil {s : State} (h : s.inputs = []) : step s = .next s := by
  simp [step, State.nextInput_nil h]

/-- A property that every op keeps is kept by every run. -/
theorem execAll_keeps {P : State → Prop} (hop : ∀ i s t, P s → exec i s = .next t → P t) :
    ∀ {is : List Instr} {s t : State}, P s → execAll is s = .next t → P t := by
  intro is
  induction is with
  | nil => intro s t hs h; cases h; exact hs
  | cons i is ih =>
    intro s t hs h
    obtain ⟨u, hu, hr⟩ := execAll_cons_next h
    exact ih (hop i s u hs hu) hr

/-- A property that every op keeps and that does not speak of the inputs is kept by every step. -/
theorem step_keeps {P : State → Prop} (hop : ∀ i s t, P s → exec i s = .next t → P t)
    (hin : ∀ s rest, P s → P { s with inputs := rest }) {s t : State} (hs : P s) (h : step s = .next t) : P t := by
  cases hi : s.inputs with
  | nil => rw [step_nil hi] at h; cases h; exact hs
  | cons i rest =>
    rw [step_cons hi] at h
    exact execAll_keeps hop (hin s rest hs) h

@[simp] theorem traceOf_nil (s : State) : traceOf [] s = [] := rfl

/-- A trace begins with the line of its first op. -/
theorem traceOf_cons_of_next {i : Instr} {is : List Instr} {s t : State} (h : exec i s = .next t) :
    traceOf (i :: is) s = traceEntry i t :: traceOf is t := by
  simp [traceOf, h]

/-- Traces compose as runs do. -/
theorem traceOf_append_of_next {is js : List Instr} {s t : State} (h : execAll is s = .next t) :
    traceOf (is ++ js) s = traceOf is s ++ traceOf js t := by
  induction is generalizing s with
  | nil => cases h; rfl
  | cons i is ih =>
    obtain ⟨u, hu, hr⟩ := execAll_cons_next h
    rw [List.cons_append, traceOf_cons_of_next hu, traceOf_cons_of_next hu, ih hr, List.cons_append]

end Sys2Proof.Machine
end

