-- ==== Sys2Proof/Tests/Slice0.lean ====
section
/-! SUPPORT. Tests of one step each, with expected values from spec/95_test_vectors.md (their numbers stand in the
docstrings), words written out from 30_encoding.md, and a witness for every obligation with hypotheses. -/

namespace Sys2Proof.Tests

open Sys2Proof.Machine

/-! ### Small states -/

/-- The parameters of the spec's vectors: delimiter 7E, `MAX_PAYLOAD` 65535. -/
def params : Params := ⟨0x7E, 65535⟩

/-- The parameters of V58, V59: `MAX_PAYLOAD` 255. -/
def params255 : Params := ⟨0x7E, 255⟩

/-- The reset state with the vectors' parameters. -/
def idle : State := { State.reset with params := params }

/-- The cells of a buffer that holds the given bytes from an index on. -/
def cells : Nat → List Byte → Memory
  | _, [] => []
  | a, b :: bs => (a, b) :: cells (a + 1) bs

/-- An RX state with collected bytes and flags, TX idle. -/
def rxAt (pos : RxPos) (len : Len) (bs : List Byte) (flags : BitVec 4 := 0) : State :=
  { idle with
    rx := { state := pos
            len := len
            cnt := BitVec.ofNat 16 bs.length
            sum := acc bs
            flags := flags
            buf := cells 0 bs } }

/-- A TX state in BODY with the bytes passed so far on the wire, RX in HUNT. -/
def txAt (len : Len) (bs : List Byte) (flags : BitVec 1 := 0) : State :=
  { idle with
    tx := { state := .body, len := len, cnt := BitVec.ofNat 16 bs.length, sum := acc bs, flags := flags }
    wireOut := header params len ++ bs }

/-- What a test looks at after an RX op: the view, the flags and the event. -/
def rxShows (o : Host.Outcome State Fault Refusal) : Option (RxView × BitVec 4 × RxEvent) :=
  match o with
  | .next t => some (t.rx.view, t.rx.flags, t.rxEvent)
  | .fault _ => none
  | .refused _ => none

/-- What a test looks at after a TX op: the view, the flag, the bytes and the event. -/
def txShows (o : Host.Outcome State Fault Refusal) : Option (TxView × BitVec 1 × List Byte × TxEvent) :=
  match o with
  | .next t => some (t.tx.view, t.tx.flags, t.txOut, t.txEvent)
  | .fault _ => none
  | .refused _ => none

/-- The fault of an op that faults. -/
def faultOf (o : Host.Outcome State Fault Refusal) : Option Fault :=
  match o with
  | .next _ => none
  | .fault f => some f
  | .refused _ => none

/-! ### Decoding: words written out bit by bit -/

/-- R78: `00xxxxxxxx`, ignored bits at 1. -/
theorem test_decode_rx_nop : decodeRx 0b0010110111#10 = .rxNop := by decide
/-- R78, V50: `01dddddddd`. -/
theorem test_decode_rx_byte : decodeRx 0b0101111110#10 = .rxByte 0x7E := by decide
/-- R78: `10xxxxxxxx`, ignored bits at 1. -/
theorem test_decode_rx_abort : decodeRx 0b1011111111#10 = .rxAbort := by decide
/-- R78, V74: `11xxxxmmmm`, ignored bits at 1. -/
theorem test_decode_rx_clrf : decodeRx 0b1111110010#10 = .rxClrf 0b0010#4 := by decide
/-- R79: `00` and sixteen ignored bits. -/
theorem test_decode_tx_nop : decodeTx 0b001010101010101011#18 = .txNop := by decide
/-- R79, V34: `01` and the length 300. -/
theorem test_decode_tx_start : decodeTx 0b010000000100101100#18 = .txStart 300 := by decide
/-- R79, V44: `10`, eight ignored bits at AB, the byte 4E. -/
theorem test_decode_tx_byte : decodeTx 0b101010101101001110#18 = .txByte 0x4E := by decide
/-- R79: `11`, fifteen ignored bits, the mask bit. -/
theorem test_decode_tx_clrf : decodeTx 0b111111111111111110#18 = .txClrf 0 := by decide
/-- R84: the pin at 1. -/
theorem test_decode_reset : decode (.pin 0b1#1) = .ok .reset := by decide
/-- R84: the pin at 0 is no instruction. -/
theorem test_decode_pin_low : decode (.pin 0b0#1) = .error .pinLow := by decide
/-- A number with a bit above the port's width, and a width no row has, are rejected by name. -/
theorem test_decode_rejects :
    decodeNumber 16 0x400 = .error .wordTooWide ∧ decodeNumber 24 0x40000 = .error .wordTooWide ∧
    decodeNumber 8 2 = .error .wordTooWide ∧ decodeNumber 32 0 = .error .noSuchWidth := by decide

/-! ### Well-formedness: each check refuses something -/

theorem test_wf_tx_frame_too_long : PseudoOp.wf (.txFrame (List.replicate 65536 0)) = false := by
  rw [PseudoOp.wf, List.length_replicate]
  decide
theorem test_wf_rx_frame_too_long : PseudoOp.wf (.rxFrame (List.replicate 65536 0)) = false := by
  rw [PseudoOp.wf, List.length_replicate]
  decide
theorem test_wf_frame_longest : PseudoOp.wf (.txFrame (List.replicate 65535 0)) = true := by
  rw [PseudoOp.wf, List.length_replicate]
  decide
theorem test_wf_line_unknown_name : Line.wf { mnemonic := "RX_BYTES", operand := some 1 } = false := by decide
theorem test_wf_line_operand_missing : Line.wf { mnemonic := "TX_START" } = false := by decide
theorem test_wf_line_operand_superfluous : Line.wf { mnemonic := "RX_ABORT", operand := some 0 } = false := by decide
theorem test_wf_line_operand_too_big : Line.wf { mnemonic := "RX_BYTE", operand := some 256 } = false := by decide
theorem test_wf_instr : Instr.wf (.txStart 65535) = true := by decide
/-- R88 and V74: op lines, with an operand in hex, in decimal, and with a comment. -/
theorem test_assemble :
    (Line.parse "RX_CLRF 0xFF".toList).bind Line.assemble = some (.rxClrf 0xF) ∧
    (Line.parse "TX_START 4 ; the length".toList).bind Line.assemble = some (.txStart 4) ∧
    (Line.parse "RESET".toList).bind Line.assemble = some .reset := by decide
/-- R88: hex is marked by `0x`; its digits are no decimal digits, and a mark alone is no number. -/
theorem test_operand_digits :
    (Line.parse "TX_BYTE 0x4e".toList).bind Line.assemble = some (.txByte 0x4E) ∧
    Line.parse "TX_BYTE 4E".toList = none ∧ Line.parse "TX_BYTE 0x".toList = none ∧
    Line.parse "TX_BYTE 0x4G".toList = none := by decide

/-! ### The envelope functions -/

/-- V2 and S1: the source's example with the sum added rightly. -/
theorem test_checksum : checksum [0x08, 0x00, 0x4E, 0x4A] = 0x5F := by decide
/-- V6: the sum carries out of eight bits. -/
theorem test_frame : frame params [0x80, 0x80, 0x01] = .ok [0x7E, 0x00, 0x03, 0x80, 0x80, 0x01, 0xFE] := by decide
/-- V19: trailing bytes are left for the next call. -/
theorem test_unframe : unframe params [0x7E, 0x00, 0x04, 0x08, 0x00, 0x4E, 0x4A, 0x5F, 0xAA, 0xBB] =
    .ok [0x08, 0x00, 0x4E, 0x4A] [0xAA, 0xBB] := by decide
/-- V24: garbage, a frame, then a partial frame. -/
theorem test_unframe_all : unframeAll params [0x00, 0x7E, 0x00, 0x02, 0x01, 0x02, 0xFC, 0x7E, 0x00] =
    ([.badDelimiter [0x7E, 0x00, 0x02, 0x01, 0x02, 0xFC, 0x7E, 0x00], .ok [0x01, 0x02] [0x7E, 0x00]],
      [0x7E, 0x00]) := by decide
/-- V27: the length bound. -/
theorem test_unframe_overlen : unframe params255 [0x7E, 0x01, 0x00, 0x55] = .overlen 256 [0x55] := by decide

/-! ### The status words (the vectors after V75) -/

theorem test_rxstat : rxStat (rxAt .payload 255 []).rx = 0x0B00FF0000 := by decide
theorem test_rxstat_flags : rxStat (rxAt .hunt 0 [] 0b1001).rx = 0x9000000000 := by decide
theorem test_txstat : txStat (txAt 4 [0x08] 1).tx = 0x300040001 := by decide

/-! ### One step of each op -/

/-- V70: `RX_NOP` in mid-frame. -/
theorem test_rx_nop : rxShows (exec .rxNop (rxAt .payload 4 [0x08, 0x00])) = some (⟨.payload, 4, 2, 0x08⟩, 0, .none) := by
  decide
/-- V52: one bit away from the delimiter is still not it. -/
theorem test_rx_byte_hunt : rxShows (exec (.rxByte 0x7D) idle) =
    some (⟨.hunt, 0, 0, 0⟩, 0b0001, .badDelim 0x7E 0x7D) := by decide
/-- V54: the delimiter's value taken as the high length byte. -/
theorem test_rx_byte_len_hi : rxShows (exec (.rxByte 0x7E) (rxAt .lenHi 0 [])) =
    some (⟨.lenLo, 32256, 0, 0⟩, 0, .none) := by decide
/-- V58: a length above the bound. -/
theorem test_rx_byte_len_lo : rxShows (exec (.rxByte 0x00) { rxAt .lenLo 256 [] with params := params255 }) =
    some (⟨.hunt, 0, 0, 0⟩, 0b0100, .overlen 256) := by decide
/-- V63: the running sum wraps. -/
theorem test_rx_byte_payload : rxShows (exec (.rxByte 0x80) (rxAt .payload 3 [0x80])) =
    some (⟨.payload, 3, 2, 0x00⟩, 0, .none) := by decide
/-- V66: the source's mistaken checksum. -/
theorem test_rx_byte_cksum_wrong : rxShows (exec (.rxByte 0x65) (rxAt .cksum 4 [0x08, 0x00, 0x4E, 0x4A])) =
    some (⟨.hunt, 0, 0, 0⟩, 0b0010, .cksumErr 4 0x5F 0x65) := by decide
/-- R148's example: the payload is delivered. -/
theorem test_rx_byte_cksum_right : rxShows (exec (.rxByte 0x5F) (rxAt .cksum 4 [0x08, 0x00, 0x4E, 0x4A])) =
    some (⟨.hunt, 0, 0, 0⟩, 0, .frameOk 4 0x5F 0x5F [0x08, 0x00, 0x4E, 0x4A]) := by decide
/-- V71. -/
theorem test_rx_abort : rxShows (exec .rxAbort (rxAt .payload 4 [0x08, 0x00])) =
    some (⟨.hunt, 0, 0, 0⟩, 0b1000, .none) := by decide
/-- V72: nothing was in progress. -/
theorem test_rx_abort_hunt : rxShows (exec .rxAbort idle) = some (⟨.hunt, 0, 0, 0⟩, 0, .none) := by decide
/-- V73. -/
theorem test_rx_clrf : rxShows (exec (.rxClrf 0x2) (rxAt .lenHi 0 [] 0b0011)) =
    some (⟨.lenHi, 0, 0, 0⟩, 0b0001, .none) := by decide
/-- R121's example. -/
theorem test_tx_nop : txShows (exec .txNop (txAt 4 [0x08, 0x00])) = some (⟨.body, 4, 2, 0x08⟩, 0, [], .none) := by
  decide
/-- V34: the length goes out high byte first. -/
theorem test_tx_start : txShows (exec (.txStart 300) idle) = some (⟨.body, 300, 0, 0⟩, 0, [0x7E, 0x01, 0x2C], .none) := by
  decide
/-- V36: refused in mid-frame. -/
theorem test_tx_start_refused : txShows (exec (.txStart 1) (txAt 4 [0x08])) =
    some (⟨.body, 4, 1, 0x08⟩, 1, [], .seqErr) := by decide
/-- V38: the last byte brings the checksum. -/
theorem test_tx_byte : txShows (exec (.txByte 0x4A) (txAt 4 [0x08, 0x00, 0x4E])) =
    some (⟨.idle, 0, 0, 0⟩, 0, [0x4A, 0x5F], .frameDone) := by decide
/-- V39: the running sum wraps. -/
theorem test_tx_byte_wraps : txShows (exec (.txByte 0x80) (txAt 3 [0x80])) =
    some (⟨.body, 3, 2, 0x00⟩, 0, [0x80], .none) := by decide
/-- V42. -/
theorem test_tx_clrf : txShows (exec (.txClrf 1) (txAt 2 [0x7E] 1)) = some (⟨.body, 2, 1, 0x7E⟩, 0, [], .none) := by
  decide
/-- V43. -/
theorem test_tx_clrf_zero : txShows (exec (.txClrf 0) { idle with tx := { idle.tx with flags := 1 } }) =
    some (⟨.idle, 0, 0, 0⟩, 1, [], .none) := by decide
/-- V75. -/
theorem test_reset :
    rxShows (exec .reset (rxAt .cksum 1 [0x7E] 0b1111)) = some (⟨.hunt, 0, 0, 0⟩, 0, .none) ∧
    txShows (exec .reset (txAt 4 [0x08] 1)) = some (⟨.idle, 0, 0, 0⟩, 0, [], .none) := by decide
/-- R26: a byte that this envelope has not written is not read. Such a state breaks R27 (entry 9). -/
theorem test_unwritten_byte_faults :
    faultOf (exec (.rxByte 0xFF) (rxAt .cksum 1 [])) = some .bufferReadUnwritten := by decide
/-- A table word runs as the next step: V33's `TX_START 65535`, and V51's dropped byte. -/
theorem test_fetch_word :
    txShows (step (idle.withFetchWord 24 0x1FFFF)) = some (⟨.body, 65535, 0, 0⟩, 0, [0x7E, 0xFF, 0xFF], .none) ∧
    rxShows (step (idle.withFetchWord 16 0x100)) = some (⟨.hunt, 0, 0, 0⟩, 0b0001, .badDelim 0x7E 0x00) := by decide

/-! ### Witnesses: a state and operands that meet a statement's hypotheses, clause by clause -/

theorem witness_StepRunsTheDecodedOp :
    decode (.tx 0x2AB4E) = .ok (.txByte 0x4E) ∧
    { idle with inputs := [PortInput.ofWord (.tx 0x2AB4E)] }.inputs = PortInput.ofWord (.tx 0x2AB4E) :: [] := by decide

theorem witness_ResetPinOutranksBothOpWords :
    { idle with inputs := [⟨1, some 0x17E, some 0x10004⟩] }.inputs = ⟨1, some 0x17E, some 0x10004⟩ :: [] ∧
    { idle with inputs := [⟨0, some 0x17E, some 0x10004⟩] }.inputs = ⟨0, some 0x17E, some 0x10004⟩ :: [] := by decide

theorem witness_StepWithoutAnOpChangesNothing :
    idle.inputs = [] ∧ { idle with inputs := [⟨0, none, none⟩] }.inputs = ⟨0, none, none⟩ :: [] := by decide

theorem witness_RunOfInputsIsRunOfOps :
    { idle with inputs := [PortInput.ofInstr .rxAbort, PortInput.ofInstr .reset, ⟨0, none, none⟩] }.inputs =
      [Instr.rxAbort, Instr.reset].map PortInput.ofInstr ++ [⟨0, none, none⟩] := by decide

/-- A reset step with both words offered; and another op, with a flag set before it. -/
theorem witness_ResetOpRestoresTheResetValues :
    { rxAt .hunt 0 [] 0b1001 with inputs := [⟨1, some 0x17E, some 0x10004⟩] }.inputs =
      ⟨1, some 0x17E, some 0x10004⟩ :: [] ∧
    Instr.rxAbort ≠ .reset ∧ (rxShows (exec .rxAbort (rxAt .hunt 0 [] 0b1001))).isSome = true ∧
    (∀ m, Instr.rxAbort ≠ .rxClrf m) ∧ (rxAt .hunt 0 [] 0b1001).rx.flags.getLsbD 3 = true ∧
    (∀ m, Instr.rxAbort ≠ .txClrf m) ∧ (txAt 2 [] 1).tx.flags.getLsbD 0 = true := by decide

theorem witness_TxStartOpensAFrame :
    idle.tx.state = .idle ∧ (0 : Len) = 0#16 ∧ (65535 : Len) ≠ 0#16 ∧ (1 : Len) ≠ 0#16 ∧ (txAt 1 []).tx.state = .body := by
  decide

theorem witness_TxBytePassesAPayloadByte :
    ((txAt 1 []).tx.state = .body ∧ (txAt 1 []).tx.cnt.toNat + 1 = (txAt 1 []).tx.len.toNat) ∧
    ((txAt 2 []).tx.state = .body ∧ (txAt 2 []).tx.cnt.toNat + 1 ≠ (txAt 2 []).tx.len.toNat) ∧
    ((txAt 65535 [0x7E]).tx.state = .body ∧ (txAt 65535 [0x7E]).tx.cnt.toNat + 1 ≠ (txAt 65535 [0x7E]).tx.len.toNat) ∧
    idle.tx.state = .idle := by decide

/-- Both refused ops raise `SEQ_ERR` (V35, V36), and the filler does not. -/
theorem witness_RefusedTxOpLeavesNoTrace :
    (Instr.txByte 0x11).port = .tx ∧ idle.tx.state = .idle ∧ (Instr.txStart 1).port = .tx ∧
    (txAt 4 [0x08]).tx.state = .body ∧ Instr.txNop.port = .tx := by decide

/-- The invariants hold in each state, and the three premises about the next state are met (V38, V32, V31, V30). -/
theorem witness_FrameDoneMeansACompleteEnvelope :
    (txAt 4 [0x08, 0x00, 0x4E]).Inv ∧ idle.Inv ∧ (Instr.txByte 0x4A).port = .tx ∧
    (txShows (exec (.txByte 0x4A) (txAt 4 [0x08, 0x00, 0x4E]))).map (·.2.2.2) = some .frameDone ∧
    (txShows (exec (.txStart 0) idle)).map (·.2.2.2) = some .frameDone ∧
    (txShows (exec (.txStart 4) (txAt 4 [0x08, 0x00, 0x4E]))).map (·.2.2.2) = some .seqErr ∧
    (txShows (exec .txNop idle)).map (fun x => (x.1.state, x.2.2.2)) = some (.idle, .none) := by
  refine ⟨?_, ?_, ?_, ?_, ?_, ?_, ?_⟩ <;> decide

/-- The two clauses meet at the last byte: three bytes owed, two supplied, then the third. -/
theorem witness_FrameStaysOpenUntilItsBytesAreSupplied :
    (txAt 4 [0x08]).Inv ∧ (txAt 4 [0x08]).tx.state = .body ∧
    (∀ i ∈ [Instr.txByte 0x00, Instr.txStart 9, Instr.rxNop, Instr.txByte 0x4E], i ≠ .reset) ∧
    (txAt 4 [0x08]).tx.cnt.toNat +
      (payloadBytes [Instr.txByte 0x00, Instr.txStart 9, Instr.rxNop, Instr.txByte 0x4E]).length + 1 =
        (txAt 4 [0x08]).tx.len.toNat := by
  refine ⟨?_, ?_, ?_, ?_⟩ <;> decide

theorem witness_FramerAgreesWithFrame :
    idle.Inv ∧ idle.tx.state = .idle ∧ ([0x4A] : List Byte).length ≤ 65535 ∧
    [Instr.txClrf 1, .txStart 1, .txNop, .txByte 0x4A, .txNop].filter (fun i => !i.txFiller) =
      .txStart (BitVec.ofNat 16 ([0x4A] : List Byte).length) :: ([0x4A] : List Byte).map .txByte := by
  refine ⟨?_, ?_, ?_, ?_⟩ <;> decide

/-- The longest payload R127 speaks of. -/
theorem witness_FramerAgreesWithFrame_longest : (List.replicate 65535 (0 : Byte)).length ≤ 65535 := by
  rw [List.length_replicate]

theorem witness_RxByteHuntsForTheDelimiter :
    idle.rx.state = .hunt ∧ (0x7E : Byte) = idle.params.startDelim ∧ (0x7D : Byte) ≠ idle.params.startDelim := by decide

theorem witness_RxByteTakesTheHighLengthByte : (rxAt .lenHi 0 []).rx.state = .lenHi := by decide

/-- The lengths at which the clauses meet: 0, 1, the bound 255 and the bound plus one (V57, V55, V59, V58). -/
theorem witness_RxByteTakesTheLowLengthByte :
    (rxAt .lenLo 256 []).rx.state = .lenLo ∧
    params255.maxPayload.val < 256 * ((rxAt .lenLo 256 []).rx.len.toNat / 256) + (0x00 : Byte).toNat ∧
    256 * ((rxAt .lenLo 0 []).rx.len.toNat / 256) + (0x00 : Byte).toNat = 0 ∧
    1 ≤ 256 * ((rxAt .lenLo 0 []).rx.len.toNat / 256) + (0x01 : Byte).toNat ∧
    256 * ((rxAt .lenLo 0 []).rx.len.toNat / 256) + (0xFF : Byte).toNat ≤ params255.maxPayload.val := by decide

/-- The first index, and the last one of a buffer of two bytes. -/
theorem witness_RxByteCollectsAPayloadByte :
    ((rxAt .payload 4 []).rx.state = .payload ∧
      (rxAt .payload 4 []).rx.cnt.toNat < (rxAt .payload 4 []).params.maxPayload.val) ∧
    ((rxAt .payload 2 [0x01]).rx.state = .payload ∧ (rxAt .payload 2 [0x01]).rx.cnt.toNat < (2 : Fin 65536).val) := by
  decide

/-- A payload, and the empty one; a right and a wrong byte. -/
theorem witness_RxByteGivesTheVerdict :
    (rxAt .cksum 2 [0x7E, 0x7E]).Inv ∧ (rxAt .cksum 2 [0x7E, 0x7E]).rx.state = .cksum ∧
    (rxAt .cksum 2 [0x7E, 0x7E]).rx.collected = some [0x7E, 0x7E] ∧ (0x03 : Byte) = checksum [0x7E, 0x7E] ∧
    (rxAt .cksum 0 []).Inv ∧ (0xFF : Byte) = checksum [] ∧ (0x7E : Byte) ≠ checksum [] := by
  refine ⟨?_, ?_, ?_, ?_, ?_, ?_, ?_⟩ <;> decide

theorem witness_RxAbortDropsTheEnvelope :
    (rxAt .lenHi 0 []).rx.state ≠ .hunt ∧ (rxAt .cksum 0 []).rx.state ≠ .hunt ∧ idle.Inv ∧ idle.rx.state = .hunt := by
  refine ⟨?_, ?_, ?_, ?_⟩ <;> decide

/-- The lowest and the highest flag. -/
theorem witness_RxClrfClearsTheMaskedFlags : 0 < 4 ∧ 3 < 4 := by decide

/-- Each state in which the delimiter's value is not special (V54, V56, V64, V69). -/
theorem witness_DelimiterValueIsSpecialOnlyInHunt :
    ((rxAt .lenHi 0 []).Inv ∧ (rxAt .lenHi 0 []).rx.state ≠ .hunt) ∧
    ((rxAt .lenLo 256 []).Inv ∧ (rxAt .lenLo 256 []).rx.state ≠ .hunt) ∧
    ((rxAt .payload 1 []).Inv ∧ (rxAt .payload 1 []).rx.state ≠ .hunt) ∧
    ((rxAt .cksum 1 [0x01]).Inv ∧ (rxAt .cksum 1 [0x01]).rx.state ≠ .hunt) := by
  refine ⟨?_, ?_, ?_, ?_⟩ <;> decide

/-- Both outcomes of a byte occur: a step without an event, and one with an event from each of the three states. -/
theorem witness_RxByteAdvancesOneWireByte :
    (rxAt .payload 1 []).Inv ∧ (rxShows (exec (.rxByte 0x7E) (rxAt .payload 1 []))).map (·.2.2) = some .none ∧
    idle.Inv ∧ (rxShows (exec (.rxByte 0x00) idle)).map (·.2.2) = some (.badDelim 0x7E 0x00) ∧
    (rxAt .cksum 0 []).Inv ∧ (rxShows (exec (.rxByte 0x00) (rxAt .cksum 0 []))).map (·.2.2) = some (.cksumErr 0 0xFF 0x00) ∧
    { rxAt .lenLo 256 [] with params := params255 }.Inv := by
  refine ⟨?_, ?_, ?_, ?_, ?_, ?_, ?_⟩ <;> decide

/-- The three ways out of an open envelope, from states that meet the invariants. -/
theorem witness_ClosedEnvelopeLeavesResetControlState :
    (rxAt .payload 4 [0x08]).Inv ∧ (rxAt .payload 4 [0x08]).rx.state ≠ .hunt ∧
    (rxShows (exec .rxAbort (rxAt .payload 4 [0x08]))).map (·.1.state) = some .hunt ∧
    (rxShows (exec .reset (rxAt .payload 4 [0x08]))).map (·.1.state) = some .hunt ∧
    (rxAt .cksum 0 []).Inv ∧ (rxAt .cksum 0 []).rx.state ≠ .hunt ∧
    (rxShows (exec (.rxByte 0xFF) (rxAt .cksum 0 []))).map (·.1.state) = some .hunt := by
  refine ⟨?_, ?_, ?_, ?_, ?_, ?_, ?_⟩ <;> decide

theorem witness_OpenEnvelopeWaitsWithoutLimit :
    (rxAt .payload 4 [0x08]).Inv ∧ (rxAt .payload 4 [0x08]).rx.state ≠ .hunt ∧
    ∀ i ∈ [Instr.rxNop, .rxClrf 0xF, .txStart 1, .txByte 2], i ≠ .rxAbort ∧ i ≠ .reset ∧ i.wireByte = none := by
  refine ⟨?_, ?_, ?_⟩ <;> decide

/-- Each of the four flags is set by a step, which gives a next state (V51, V66, V58, V71). -/
theorem witness_RxFlagsAreSetByTheirEvents :
    (rxShows (exec (.rxByte 0x00) idle)).map (·.2.1) = some 0b0001 ∧
    (rxShows (exec (.rxByte 0x00) (rxAt .cksum 0 []))).map (·.2.1) = some 0b0010 ∧
    (rxShows (exec (.rxByte 0x00) { rxAt .lenLo 256 [] with params := params255 })).map (·.2.1) = some 0b0100 ∧
    (rxShows (exec .rxAbort (rxAt .lenHi 0 []))).map (·.2.1) = some 0b1000 := by decide

/-- V58, and V60 with the buffer of 65535 bytes. -/
theorem witness_OverlenMeansALengthBeyondTheBuffer :
    (Instr.rxByte 0x00).port = .rx ∧
    (rxShows (exec (.rxByte 0x00) { rxAt .lenLo 256 [] with params := params255 })).map (·.2.2) = some (.overlen 256) ∧
    (rxAt .lenLo 65280 []).params.maxPayload.val = 65535 ∧
    (rxShows (exec (.rxByte 0xFF) (rxAt .lenLo 65280 []))).map (·.1) = some ⟨.payload, 65535, 0, 0⟩ := by decide

theorem witness_FrameOkOnlyAtAMatchingChecksum :
    (rxAt .cksum 1 [0x7E]).Inv ∧ (Instr.rxByte 0x81).port = .rx ∧
    (rxShows (exec (.rxByte 0x81) (rxAt .cksum 1 [0x7E]))).map (·.2.2) = some (.frameOk 1 0x81 0x81 [0x7E]) := by
  refine ⟨?_, ?_, ?_⟩ <;> decide

theorem witness_OwedBytesCloseTheEnvelope :
    (rxAt .payload 4 [0x08, 0x00]).Inv ∧ (rxAt .payload 4 [0x08, 0x00]).rx.state = .payload ∧
    (rxAt .payload 4 [0x08, 0x00]).rx.cnt.toNat + ([0x4E, 0x4A] : List Byte).length =
      (rxAt .payload 4 [0x08, 0x00]).rx.len.toNat := by
  refine ⟨?_, ?_, ?_⟩ <;> decide

theorem witness_UnframerAgreesWithUnframeAll :
    (rxAt .hunt 0 [] 0b1111).Inv ∧ (rxAt .hunt 0 [] 0b1111).rx.state = .hunt ∧
    (∀ i ∈ [Instr.rxByte 0x00, .rxNop, .rxByte 0x7E, .rxClrf 1, .rxByte 0x00], i.feedsRx = true) ∧
    (unframeAll params (wireBytes [Instr.rxByte 0x00, .rxNop, .rxByte 0x7E, .rxClrf 1, .rxByte 0x00])).2 ≠ [] ∧
    ([0x08, 0x00] : List Byte).length ≤ (rxAt .hunt 0 [] 0b1111).params.maxPayload.val := by
  refine ⟨?_, ?_, ?_, ?_, ?_⟩ <;> decide

/-- A framer and an unframer with different bounds and the same delimiter, and a payload at the smaller bound. -/
theorem witness_LoopBackDeliversThePayload :
    idle.Inv ∧ { idle with params := ⟨0x7E, 2⟩ }.Inv ∧
    idle.params.startDelim = { idle with params := ⟨0x7E, 2⟩ }.params.startDelim ∧ idle.tx.state = .idle ∧
    { idle with params := ⟨0x7E, 2⟩ }.rx.state = .hunt ∧
    ([0x7E, 0x7E] : List Byte).length ≤ { idle with params := ⟨0x7E, 2⟩ }.params.maxPayload.val := by
  refine ⟨?_, ?_, ?_, ?_, ?_, ?_⟩ <;> decide

theorem witness_FrameBuildsTheEnvelope :
    (List.replicate 65535 (0 : Byte)).length ≤ 65535 ∧ 65535 < (List.replicate 65536 (0 : Byte)).length := by
  rw [List.length_replicate, List.length_replicate]
  decide

/-- V15, a stray byte, V17, V27, V18, V19 and V20 meet the premises of the tests in turn. -/
theorem witness_UnframeFollowsItsTests :
    ([] : List Byte).length = 0 ∧
    (([0x00] : List Byte)[0]? = some 0x00 ∧ (0x00 : Byte) ≠ params.startDelim) ∧
    (([0x7E, 0x00] : List Byte)[0]? = some params.startDelim ∧ ([0x7E, 0x00] : List Byte).length < 3) ∧
    (([0x7E, 0x01, 0x00] : List Byte)[1]? = some 0x01 ∧ ([0x7E, 0x01, 0x00] : List Byte)[2]? = some 0x00 ∧
      256 = 256 * (0x01 : Byte).toNat + (0x00 : Byte).toNat ∧ params255.maxPayload.val < 256) ∧
    (([0x7E, 0x00, 0x01, 0x7E] : List Byte)[2]? = some 0x01 ∧ ([0x7E, 0x00, 0x01, 0x7E] : List Byte).length < 1 + 4) ∧
    (([0x7E, 0x00, 0x01, 0x7E, 0x81] : List Byte)[3 + 1]? = some 0x81 ∧
      (0x81 : Byte) = checksum ((([0x7E, 0x00, 0x01, 0x7E, 0x81] : List Byte).drop 3).take 1)) ∧
    (0x80 : Byte) ≠ checksum ((([0x7E, 0x00, 0x01, 0x7E, 0x80] : List Byte).drop 3).take 1) := by decide

theorem witness_UnframeAllFollowsItsRecursion :
    unframe params [0x7E] = .incomplete ∧ (unframe params [0x00, 0x7E]).rest = some [0x7E] ∧
    unframe params [0x00, 0x7E] = .badDelimiter [0x7E] ∧ unframe params255 [0x7E, 0x01, 0x00] = .overlen 256 [] ∧
    unframe params [0x7E, 0x00, 0x00, 0xFF] = .ok [] [] ∧
    unframe params [0x7E, 0x00, 0x00, 0x00, 0x7E] = .checksumError [0x7E] := by decide

theorem witness_UnframeUndoesFrame : ([0x7E] : List Byte).length ≤ (⟨0x7E, 1⟩ : Params).maxPayload.val := by decide

/-- The first payload byte, lowest bit; and the checksum byte, highest bit. -/
theorem witness_SingleBitCorruptionIsDetected :
    ([0x7E] : List Byte).length ≤ params.maxPayload.val ∧
    (0 < 8 ∧ 3 ≤ 3 ∧ 3 ≤ ([0x7E] : List Byte).length + 3 ∧ (envelope params [0x7E])[3]? = some 0x7E) ∧
    (7 < 8 ∧ 3 ≤ 4 ∧ 4 ≤ ([0x7E] : List Byte).length + 3 ∧ (envelope params [0x7E])[4]? = some 0x81) := by decide

/-- V28: reordered bytes. -/
theorem witness_ChangesThatKeepTheSumPass :
    ([0x08, 0x00, 0x4E, 0x4A] : List Byte).length ≤ params.maxPayload.val ∧
    ([0x4E, 0x08, 0x00, 0x4A] : List Byte).length = ([0x08, 0x00, 0x4E, 0x4A] : List Byte).length ∧
    byteSum [0x4E, 0x08, 0x00, 0x4A] % 256 = byteSum [0x08, 0x00, 0x4E, 0x4A] % 256 ∧
    (byteSum [0x4E, 0x08, 0x01, 0x4A] + (0x5E : Byte).toNat) % 256 = 0xFF ∧
    ([0x4E, 0x08, 0x00, 0x4A] : List Byte).Perm [0x08, 0x00, 0x4E, 0x4A] := by decide

theorem witness_StrictPrefixesAreIncomplete :
    ([0x7E] : List Byte).length ≤ params.maxPayload.val ∧ 0 < ([0x7E] : List Byte).length + 4 ∧
    4 < ([0x7E] : List Byte).length + 4 := by decide

/-- An op of each path gives a next state. -/
theorem witness_OpsStayOnTheirPath :
    (Instr.rxByte 0x00).port = .rx ∧ (rxShows (exec (.rxByte 0x00) idle)).isSome = true ∧
    (Instr.txStart 2).port = .tx ∧ (txShows (exec (.txStart 2) idle)).isSome = true := by decide

theorem witness_InterleavingsAgree : ∀ i ∈ [Instr.txStart 1, .rxByte 0x7E, .txByte 0x11, .rxByte 0x00], i ≠ .reset := by
  decide

/-- Two states that differ in flags and in a stale byte. -/
theorem witness_FlagsAndStaleBytesInfluenceNothing :
    (rxAt .payload 4 [0x08] 0b0101).Inv ∧
    { rxAt .payload 4 [0x08] with rx := { (rxAt .payload 4 [0x08]).rx with buf := [(0, 0x08), (1, 0xAA)] } }.Inv ∧
    RxState.Alike (rxAt .payload 4 [0x08] 0b0101).rx
      { (rxAt .payload 4 [0x08]).rx with buf := [(0, 0x08), (1, 0xAA)] } ∧
    (rxAt .payload 4 [0x08] 0b0101).rx ≠ { (rxAt .payload 4 [0x08]).rx with buf := [(0, 0x08), (1, 0xAA)] } := by
  refine ⟨?_, ?_, ?_, ?_⟩ <;> decide

theorem witness_IdempotentOpsTwiceEqualOnce :
    ∀ i ∈ [Instr.rxNop, .rxAbort, .rxClrf 3, .txNop, .txClrf 1, .reset],
      i.wireByte = none ∧ i.payloadByte = none ∧ i ≠ .txStart 0 := by decide

/-- A collecting byte gives a next state, and another index is not the one it stores to. -/
theorem witness_BufferChangesOnlyByCollection :
    (rxShows (exec (.rxByte 0x00) (rxAt .payload 4 [0x08]))).isSome = true ∧ Instr.rxByte 0x00 ≠ .reset ∧
    (rxAt .payload 4 [0x08]).rx.state = .payload ∧ 0 ≠ (rxAt .payload 4 [0x08]).rx.cnt.toNat := by decide

/-- A step in which both paths act gives a next state. -/
theorem witness_StreamsOnlyGrowAndInputsAreTakenInOrder :
    (txShows (step { idle with inputs := [⟨0, some 0x100, some 0x10000⟩] })).map (·.2.2.1) =
      some [0x7E, 0x00, 0x00, 0xFF] := by decide

theorem witness_ParametersNeverChange :
    (rxShows (step { idle with inputs := [⟨1, some 0x100, none⟩] })).isSome = true := by decide

theorem witness_StepKeepsTheInvariants :
    { rxAt .payload 2 [0x7E] with inputs := [⟨0, some 0x17E, some 0x10001⟩] }.Inv ∧
    (rxShows (step { rxAt .payload 2 [0x7E] with inputs := [⟨0, some 0x17E, some 0x10001⟩] })).map (·.1) =
      some ⟨.cksum, 2, 2, 0xFC⟩ := by
  refine ⟨?_, ?_⟩ <;> decide

theorem witness_StepNeverStops : (txAt 2 [0x7E]).Inv ∧ (rxAt .cksum 2 [0x7E, 0x7E]).Inv := by
  refine ⟨?_, ?_⟩ <;> decide

/-- The longest payload the expansion of `TX_FRAME` speaks of. -/
theorem witness_PseudoOpsExpandAsListed :
    (List.replicate 65534 (0 : Byte)).length < 65535 ∧ (List.replicate 65535 (0 : Byte)).length ≤ 65535 := by
  rw [List.length_replicate, List.length_replicate]
  decide

end Sys2Proof.Tests
end

section
/-! PROOFS. The reset state (10_state.md R40). -/

namespace Sys2Proof.Machine

/-- `RXSTAT` packs the flags, the position and the two registers (R82), and each of them is 0 in HUNT with the
registers and flags cleared. -/
theorem rxStat_eq_zero_of_hunt {r : RxState} (hstate : r.state = .hunt) (hlen : r.len = 0) (hcnt : r.cnt = 0)
    (hflags : r.flags = 0) : rxStat r = 0 := by
  simp [rxStat, rxIncomplete, RxPos.code, hstate, hlen, hcnt, hflags]

/-- `TXSTAT` in IDLE with the registers and the flag cleared (R83). -/
theorem txStat_eq_zero_of_idle {t : TxState} (hstate : t.state = .idle) (hlen : t.len = 0) (hcnt : t.cnt = 0)
    (hflags : t.flags = 0) : txStat t = 0 := by
  simp [txStat, TxPos.code, hstate, hlen, hcnt, hflags]

end Sys2Proof.Machine

namespace Sys2Proof

open Machine

/-- Settles O12: the registers, flags and outputs are the fields `State.reset` lists, and both status words are 0
because each path is in its first position with everything cleared. -/
theorem resetStateHoldsTheResetValues : Obligations.ResetStateHoldsTheResetValues := by
  have hrxStat : rxStat State.reset.rx = 0 := rxStat_eq_zero_of_hunt rfl rfl rfl rfl
  have htxStat : txStat State.reset.tx = 0 := txStat_eq_zero_of_idle rfl rfl rfl rfl
  exact ⟨rfl, rfl, rfl, rfl, rfl, rfl, rfl, rfl, rfl, rfl, hrxStat, htxStat, rfl, rfl, rfl⟩

end Sys2Proof
end

section
/-! PROOFS. The op tables of the two ports (30_encoding.md R78, R79). -/

namespace Sys2Proof

/-- The four opcodes of a port. -/
theorem opcode_cases (op : BitVec 2) : op = 0b00#2 ∨ op = 0b01#2 ∨ op = 0b10#2 ∨ op = 0b11#2 := by
  revert op
  decide

/-- A 10-bit word is an opcode and an operand (R77). -/
theorem rxWord_fields (w : RxWord) : ∃ (op : BitVec 2) (x : BitVec 8), w = op ++ x :=
  ⟨_, _, (append_fields (n := 2) (m := 8) w).symm⟩

/-- An 18-bit word is an opcode and an operand (R79). -/
theorem txWord_fields (w : TxWord) : ∃ (op : BitVec 2) (x : BitVec 16), w = op ++ x :=
  ⟨_, _, (append_fields (n := 2) (m := 16) w).symm⟩

/-- The only RX row that claims a word is the one of the op it decodes to: both depend on the opcode alone. -/
theorem rxRows_claim_decoded (w : RxWord) :
    (rxRows.filter (·.claims w)).map (·.mnemonic) = [(decodeRx w).mnemonic] := by
  obtain ⟨op, x, rfl⟩ := rxWord_fields w
  rw [Laws.rxRows_claiming, decodeRx_mk]
  rcases opcode_cases op with rfl | rfl | rfl | rfl <;> rfl

/-- The only TX row that claims a word is the one of the op it decodes to. -/
theorem txRows_claim_decoded (w : TxWord) :
    (txRows.filter (·.claims w)).map (·.mnemonic) = [(decodeTx w).mnemonic] := by
  obtain ⟨op, x, rfl⟩ := txWord_fields w
  rw [Laws.txRows_claiming, decodeTx_mk]
  rcases opcode_cases op with rfl | rfl | rfl | rfl <;> rfl

/-- Settles O2: each pattern is the decoder on an opcode and an operand put together, the mask of `RX_CLRF` being the
low field of its operand. -/
theorem rxOpTableFixesEveryWord : Obligations.RxOpTableFixesEveryWord := by
  refine ⟨fun x => decodeRx_mk 0b00#2 x, fun d => decodeRx_mk 0b01#2 d, fun x => decodeRx_mk 0b10#2 x,
    fun x m => ?_, rxRows_claim_decoded⟩
  have hmask : (x ++ m).extractLsb' 0 4 = m := BitVec.extractLsb'_append_eq_right
  exact (decodeRx_mk 0b11#2 (x ++ m)).trans (congrArg Instr.rxClrf hmask)

/-- Settles O3: as on the RX port; the byte of `TX_BYTE` and the mask of `TX_CLRF` are the low fields of their
operands. -/
theorem txOpTableFixesEveryWord : Obligations.TxOpTableFixesEveryWord := by
  refine ⟨fun x => decodeTx_mk 0b00#2 x, fun l => decodeTx_mk 0b01#2 l, fun x d => ?_, fun x m => ?_,
    txRows_claim_decoded⟩
  · have hbyte : (x ++ d).extractLsb' 0 8 = d := BitVec.extractLsb'_append_eq_right
    exact (decodeTx_mk 0b10#2 (x ++ d)).trans (congrArg Instr.txByte hbyte)
  · have hmask : (x ++ m).extractLsb' 0 1 = m := BitVec.extractLsb'_append_eq_right
    exact (decodeTx_mk 0b11#2 (x ++ m)).trans (congrArg Instr.txClrf hmask)

end Sys2Proof
end

section
/-! PROOFS. The layout of the two status words (30_encoding.md R82, R83). -/

namespace Sys2Proof.Machine

/-- A field between a higher and a lower one, read back. -/
theorem middle_of_append {n m k : Nat} (a : BitVec n) (b : BitVec m) (c : BitVec k) :
    (a ++ b ++ c).extractLsb' k m = b :=
  (above_of_append 0 m (a ++ b) c).trans BitVec.extractLsb'_append_eq_right

theorem rxStat_cnt (r : RxState) : (rxStat r).extractLsb' 0 16 = r.cnt :=
  BitVec.extractLsb'_append_eq_right

theorem rxStat_len (r : RxState) : (rxStat r).extractLsb' 16 16 = r.len :=
  middle_of_append _ r.len r.cnt

theorem rxStat_state (r : RxState) : (rxStat r).extractLsb' 32 3 = r.state.code :=
  (above_of_append 16 3 _ r.cnt).trans (middle_of_append _ r.state.code r.len)

/-- INCOMPLETE stands above STATE, LEN and CNT. -/
theorem rxStat_incomplete (r : RxState) : (rxStat r).getLsbD 35 = (rxIncomplete r).getLsbD 0 :=
  calc (rxStat r).getLsbD 35
    _ = (r.flags ++ rxIncomplete r ++ r.state.code ++ r.len).getLsbD 19 := bit_above_of_append 19 _ r.cnt
    _ = (r.flags ++ rxIncomplete r ++ r.state.code).getLsbD 3 := bit_above_of_append 3 _ r.len
    _ = (r.flags ++ rxIncomplete r).getLsbD 0 := bit_above_of_append 0 _ r.state.code
    _ = (rxIncomplete r).getLsbD 0 := BitVec.getLsbD_append

theorem rxStat_flags (r : RxState) : (rxStat r).extractLsb' 36 4 = r.flags :=
  calc (rxStat r).extractLsb' 36 4
    _ = (r.flags ++ rxIncomplete r ++ r.state.code ++ r.len).extractLsb' 20 4 := above_of_append 20 4 _ r.cnt
    _ = (r.flags ++ rxIncomplete r ++ r.state.code).extractLsb' 4 4 := above_of_append 4 4 _ r.len
    _ = (r.flags ++ rxIncomplete r).extractLsb' 1 4 := above_of_append 1 4 _ r.state.code
    _ = r.flags := high_of_append r.flags (rxIncomplete r)

theorem txStat_cnt (t : TxState) : (txStat t).extractLsb' 0 16 = t.cnt :=
  BitVec.extractLsb'_append_eq_right

theorem txStat_len (t : TxState) : (txStat t).extractLsb' 16 16 = t.len :=
  middle_of_append _ t.len t.cnt

theorem txStat_state (t : TxState) : (txStat t).extractLsb' 32 1 = t.state.code :=
  (above_of_append 16 1 _ t.cnt).trans (middle_of_append _ t.state.code t.len)

theorem txStat_flags (t : TxState) : (txStat t).extractLsb' 33 1 = t.flags :=
  calc (txStat t).extractLsb' 33 1
    _ = (t.flags ++ t.state.code ++ t.len).extractLsb' 17 1 := above_of_append 17 1 _ t.cnt
    _ = (t.flags ++ t.state.code).extractLsb' 1 1 := above_of_append 1 1 _ t.len
    _ = t.flags := high_of_append t.flags t.state.code

/-- INCOMPLETE is 1 exactly outside HUNT (R174). -/
theorem rxIncomplete_bit (r : RxState) : (rxIncomplete r).getLsbD 0 = true ↔ r.state ≠ .hunt := by
  unfold rxIncomplete
  split <;> simp [*]

end Sys2Proof.Machine

namespace Sys2Proof

open Machine

/-- Settles O7: the fields of each word by the lemma of their bits; the state codes position by position. -/
theorem statusWordsShowTheirFields : Obligations.StatusWordsShowTheirFields := by
  refine ⟨fun r => ⟨rxStat_cnt r, rxStat_len r, ?_, ?_, rxStat_flags r⟩,
    fun t => ⟨txStat_cnt t, txStat_len t, ?_, txStat_flags t⟩⟩
  · rw [rxStat_state]
    cases r.state <;> rfl
  · rw [rxStat_incomplete]
    exact rxIncomplete_bit r
  · rw [txStat_state]
    cases t.state <;> rfl

end Sys2Proof
end

section
/-! PROOFS. The reset pin against the op words (30_encoding.md R84). -/

namespace Sys2Proof

open Machine

/-- Settles O9: a step runs the ops of its input, and those are `RESET` alone with the pin at 1 and the two decoded
words with the pin at 0. -/
theorem resetPinOutranksBothOpWords : Obligations.ResetPinOutranksBothOpWords := by
  refine ⟨rfl, fun s rx tx rest => ⟨fun hpin => ?_, fun v w hwords => ?_⟩⟩
  · rw [step_cons hpin, PortInput.ops_reset, execAll_singleton]
  · rw [step_cons hwords, PortInput.ops_words]
    rfl

end Sys2Proof
end

section
/-! PROOFS. The pseudo-ops (30_encoding.md R89). -/

namespace Sys2Proof

open Machine

/-- `TX_FRAME` of a payload that fits the length field. -/
theorem PseudoOp.expand_txFrame (p : Params) {s : List Byte} (h : s.length ≤ 65535) :
    PseudoOp.expand p (.txFrame s) = .ok (.txStart (BitVec.ofNat 16 s.length) :: s.map .txByte) := if_pos h

/-- `RX_FRAME` presents what `frame` gives. -/
theorem PseudoOp.expand_rxFrame {p : Params} {s wire : List Byte} (h : frame p s = .ok wire) :
    PseudoOp.expand p (.rxFrame s) = .ok (wire.map .rxByte) := by
  simp [PseudoOp.expand, h]

/-- Settles O59: the two framing pseudo-ops by their lemmas, `TX_FRAME` without bytes being the empty payload; the
others stand in the expansion as listed. -/
theorem pseudoOpsExpandAsListed : Obligations.PseudoOpsExpandAsListed := by
  refine fun p => ⟨fun bs => rfl, PseudoOp.expand_txFrame p (Nat.zero_le _), fun b bs hlen => ?_,
    fun payload hlen => ?_, rfl, rfl⟩
  · exact PseudoOp.expand_txFrame p (s := b :: bs) hlen
  · have hframe := frame_of_le p hlen
    exact ⟨envelope p payload, hframe, PseudoOp.expand_rxFrame hframe⟩

end Sys2Proof
end

section
/-! PROOFS. The checksum: acceptance by the sum, and what a change of the bytes does to the sum
(40_envelope_functions.md R103, R111, R112). -/

namespace Sys2Proof.Machine

/-- Acceptance by the sum of payload and checksum byte together (R103). -/
theorem eq_checksum_iff_byteSum (s : List Byte) (c : Byte) :
    c = checksum s ↔ byteSum (s ++ [c]) % 256 = 0xFF := by
  have hc : c.toNat < 256 := c.isLt
  rw [← BitVec.toNat_inj, checksum_toNat, byteSum_append, byteSum_cons, byteSum_nil]
  omega

theorem byteSum_append_checksum (s : List Byte) : byteSum (s ++ [checksum s]) % 256 = 0xFF :=
  (eq_checksum_iff_byteSum s _).mp rfl

/-- The sum follows a change of one byte. -/
theorem byteSum_set {s : List Byte} {n : Nat} {b : Byte} (x : Byte) (hget : s[n]? = some b) :
    byteSum (s.set n x) + b.toNat = byteSum s + x.toNat := by
  induction s generalizing n with
  | nil => simp at hget
  | cons a s ih =>
    cases n with
    | zero =>
      obtain rfl : a = b := by simpa using hget
      simp only [List.set_cons_zero, byteSum_cons]
      omega
    | succ n =>
      have := ih (n := n) (by simpa using hget)
      simp only [List.set_cons_succ, byteSum_cons]
      omega

/-- Another byte in one place always moves the sum modulo 256. -/
theorem byteSum_set_mod_ne {s : List Byte} {n : Nat} {b x : Byte} (hget : s[n]? = some b) (hne : x ≠ b) :
    byteSum (s.set n x) % 256 ≠ byteSum s % 256 := by
  have hset := byteSum_set x hget
  have hx : x.toNat < 256 := x.isLt
  have hb : b.toNat < 256 := b.isLt
  have hnat : x.toNat ≠ b.toNat := BitVec.toNat_ne.mp hne
  omega

theorem byteSum_perm {s t : List Byte} (h : s.Perm t) : byteSum s = byteSum t := (h.map _).sum_eq

/-- A flipped bit gives another byte. -/
theorem xor_twoPow_ne (b : Byte) {k : Nat} (hk : k < 8) : b ^^^ BitVec.twoPow 8 k ≠ b := by
  intro h
  have hbit : (b ^^^ BitVec.twoPow 8 k).getLsbD k = b.getLsbD k := by rw [h]
  simp [hk] at hbit

end Sys2Proof.Machine
end

section
/-! PROOFS. What `unframe` answers on each shape of input, and the calls of `unframe_all`
(40_envelope_functions.md R107 to R109). -/

namespace Sys2Proof.Machine

/-! ### Behind a good delimiter and two length bytes -/

section Header

variable {p : Params} {hi lo : Byte} {l : Nat} {body : List Byte} (hl : l = 256 * hi.toNat + lo.toNat)
include hl

/-- The announced length is over the bound. -/
theorem unframe_of_overlen (hmax : p.maxPayload.val < l) :
    unframe p (p.startDelim :: hi :: lo :: body) = .overlen l body := by
  subst hl
  rw [unframe_of_header, if_pos hmax]

/-- The checksum byte is not there yet. -/
theorem unframe_of_short (hmax : l ≤ p.maxPayload.val) (hshort : body.length ≤ l) :
    unframe p (p.startDelim :: hi :: lo :: body) = .incomplete := by
  subst hl
  rw [unframe_of_header, if_neg (Nat.not_lt.mpr hmax), List.drop_eq_nil_of_le hshort]

/-- The whole envelope is there: payload, checksum byte, and what follows. -/
theorem unframe_of_complete {s : List Byte} (c : Byte) (rest : List Byte) (hmax : l ≤ p.maxPayload.val)
    (hlen : s.length = l) :
    unframe p (p.startDelim :: hi :: lo :: (s ++ c :: rest)) =
      if c = checksum s then .ok s rest else .checksumError rest := by
  subst hl
  rw [unframe_of_header, if_neg (Nat.not_lt.mpr hmax), List.drop_left' hlen, List.take_left' hlen]

end Header

/-! ### The outcomes against the input -/

/-- The bytes of an input that opens with a delimiter and a length. -/
theorem eq_of_header {w : List Byte} {d hi lo : Byte} (h0 : w[0]? = some d) (h1 : w[1]? = some hi)
    (h2 : w[2]? = some lo) : w = d :: hi :: lo :: w.drop 3 := by
  match w with
  | a :: b :: c :: body => simp_all

/-- A list around one of its elements. -/
theorem exists_append_cons_of_getElem? {s : List Byte} {n : Nat} {c : Byte} (h : s[n]? = some c) :
    ∃ pre post, s = pre ++ c :: post ∧ pre.length = n := by
  obtain ⟨hn, rfl⟩ := List.getElem?_eq_some_iff.mp h
  refine ⟨s.take n, s.drop (n + 1), ?_, List.length_take_of_le hn.le⟩
  rw [← List.drop_eq_getElem_cons hn, List.take_append_drop]

/-- What each outcome of `unframe` says of its input, tests included (R107 to R109). -/
inductive UnframeReads (p : Params) : List Byte → UnframeOutcome → Prop
  | empty : UnframeReads p [] .incomplete
  | delimiterAlone : UnframeReads p [p.startDelim] .incomplete
  | highByteLast (hi : Byte) : UnframeReads p [p.startDelim, hi] .incomplete
  | short (hi lo : Byte) (body : List Byte) (hmax : 256 * hi.toNat + lo.toNat ≤ p.maxPayload.val)
      (hshort : body.length ≤ 256 * hi.toNat + lo.toNat) :
      UnframeReads p (p.startDelim :: hi :: lo :: body) .incomplete
  | badDelimiter (b : Byte) (rest : List Byte) (hne : b ≠ p.startDelim) :
      UnframeReads p (b :: rest) (.badDelimiter rest)
  | overlen (hi lo : Byte) (rest : List Byte) (hmax : p.maxPayload.val < 256 * hi.toNat + lo.toNat) :
      UnframeReads p (p.startDelim :: hi :: lo :: rest) (.overlen (256 * hi.toNat + lo.toNat) rest)
  | ok (hi lo : Byte) (s rest : List Byte) (hmax : s.length ≤ p.maxPayload.val)
      (hlen : s.length = 256 * hi.toNat + lo.toNat) :
      UnframeReads p (p.startDelim :: hi :: lo :: (s ++ checksum s :: rest)) (.ok s rest)
  | checksumError (hi lo : Byte) (s : List Byte) (c : Byte) (rest : List Byte) (hmax : s.length ≤ p.maxPayload.val)
      (hlen : s.length = 256 * hi.toNat + lo.toNat) (hne : c ≠ checksum s) :
      UnframeReads p (p.startDelim :: hi :: lo :: (s ++ c :: rest)) (.checksumError rest)

theorem unframe_reads_of_header (p : Params) (hi lo : Byte) (body : List Byte) :
    UnframeReads p (p.startDelim :: hi :: lo :: body) (unframe p (p.startDelim :: hi :: lo :: body)) := by
  rcases Nat.lt_or_ge p.maxPayload.val (256 * hi.toNat + lo.toNat) with hover | hmax
  · rw [unframe_of_overlen rfl hover]
    exact .overlen hi lo body hover
  · rcases Nat.lt_or_ge (256 * hi.toNat + lo.toNat) body.length with hlong | hshort
    · obtain ⟨s, rest, hbody, hlen⟩ := exists_append_cons_of_getElem? (List.getElem?_eq_getElem hlong)
      rw [hbody, unframe_of_complete rfl _ rest hmax hlen]
      split
      · next hc => exact hc ▸ .ok hi lo s rest (hlen ▸ hmax) hlen
      · next hc => exact .checksumError hi lo s _ rest (hlen ▸ hmax) hlen hc
    · rw [unframe_of_short rfl hmax hshort]
      exact .short hi lo body hmax hshort

theorem unframe_reads (p : Params) (w : List Byte) : UnframeReads p w (unframe p w) := by
  match w with
  | [] => exact .empty
  | b :: tail =>
    by_cases hdelim : b = p.startDelim
    · subst hdelim
      match tail with
      | [] => exact unframe_one p ▸ .delimiterAlone
      | [hi] => exact unframe_two p hi ▸ .highByteLast hi
      | hi :: lo :: body => exact unframe_reads_of_header p hi lo body
    · exact unframe_of_ne p tail hdelim ▸ .badDelimiter b tail hdelim

/-- The same with the outcome named, for case analysis on it. -/
theorem UnframeReads.of_eq {p : Params} {w : List Byte} {r : UnframeOutcome} (h : unframe p w = r) :
    UnframeReads p w r := h ▸ unframe_reads p w

/-- Each call but `incomplete` consumes at least one byte (R109). -/
theorem unframe_rest_length_lt {p : Params} {w rest : List Byte} (h : (unframe p w).rest = some rest) :
    rest.length < w.length := by
  have hreads := unframe_reads p w
  generalize unframe p w = r at hreads h
  cases hreads with
  | empty | delimiterAlone | highByteLast | short => cases h
  | badDelimiter | overlen =>
    cases h
    simp only [List.length_cons]
    omega
  | ok | checksumError =>
    cases h
    simp only [List.length_cons, List.length_append]
    omega

/-! ### The calls of `unframe_all` -/

theorem unframeCallsWithin_of_incomplete {p : Params} {w : List Byte} (n : Nat) (h : (unframe p w).rest = none) :
    unframeCallsWithin p n w = ([], w) := by
  cases n with
  | zero => rfl
  | succ n => simp [unframeCallsWithin, h]

theorem unframeCallsWithin_of_rest {p : Params} {w rest : List Byte} (n : Nat) (h : (unframe p w).rest = some rest) :
    unframeCallsWithin p (n + 1) w =
      ((w, unframe p w) :: (unframeCallsWithin p n rest).1, (unframeCallsWithin p n rest).2) := by
  simp [unframeCallsWithin, h]

/-- A bound of at least the input's length is never met (R109). -/
theorem unframeCallsWithin_of_le {p : Params} {n : Nat} {w : List Byte} (h : w.length ≤ n) :
    unframeCallsWithin p n w = unframeCalls p w := by
  suffices hany : ∀ m, w.length ≤ m → unframeCallsWithin p n w = unframeCallsWithin p m w from hany _ le_rfl
  intro m hm
  induction n generalizing m w with
  | zero =>
    obtain rfl := List.eq_nil_of_length_eq_zero (Nat.le_zero.mp h)
    rw [unframeCallsWithin_of_incomplete m rfl, unframeCallsWithin_of_incomplete 0 rfl]
  | succ n ih =>
    cases hrest : (unframe p w).rest with
    | none => rw [unframeCallsWithin_of_incomplete _ hrest, unframeCallsWithin_of_incomplete _ hrest]
    | some rest =>
      have hlt := unframe_rest_length_lt hrest
      obtain ⟨m, rfl⟩ : ∃ k, m = k + 1 := ⟨m - 1, by omega⟩
      rw [unframeCallsWithin_of_rest n hrest, unframeCallsWithin_of_rest m hrest, ih (by omega) m (by omega)]

theorem unframeCalls_of_incomplete {p : Params} {w : List Byte} (h : (unframe p w).rest = none) :
    unframeCalls p w = ([], w) :=
  unframeCallsWithin_of_incomplete _ h

/-- The recursion of `unframe_all`, call by call. -/
theorem unframeCalls_of_rest {p : Params} {w rest : List Byte} (h : (unframe p w).rest = some rest) :
    unframeCalls p w = ((w, unframe p w) :: (unframeCalls p rest).1, (unframeCalls p rest).2) := by
  have hlt := unframe_rest_length_lt h
  calc unframeCalls p w
    _ = unframeCallsWithin p (w.length - 1 + 1) w := (unframeCallsWithin_of_le (by omega)).symm
    _ = ((w, unframe p w) :: (unframeCallsWithin p (w.length - 1) rest).1,
          (unframeCallsWithin p (w.length - 1) rest).2) := unframeCallsWithin_of_rest _ h
    _ = ((w, unframe p w) :: (unframeCalls p rest).1, (unframeCalls p rest).2) := by
      rw [unframeCallsWithin_of_le (by omega)]

end Sys2Proof.Machine

namespace Sys2Proof

open Machine

/-- Settles O43: the input is taken apart as far as each test reads it. -/
theorem unframeFollowsItsTests : Obligations.UnframeFollowsItsTests := by
  refine fun p w => ⟨fun hlen => ?_, fun b hget hne => ?_, fun hdelim hlen => ?_,
    fun hi lo l hdelim hhi hlo hl => ?_⟩
  · rw [List.eq_nil_of_length_eq_zero hlen, unframe_nil]
  · obtain ⟨rest, rfl⟩ := List.head?_eq_some_iff.mp (List.head?_eq_getElem?.trans hget)
    exact unframe_of_ne p rest hne
  · match w with
    | [b] =>
      obtain rfl : b = p.startDelim := by simpa using hdelim
      exact unframe_one p
    | [b, hi] =>
      obtain rfl : b = p.startDelim := by simpa using hdelim
      exact unframe_two p hi
  · have hw := eq_of_header hdelim hhi hlo
    generalize w.drop 3 = body at hw
    subst hw
    refine ⟨fun hover => unframe_of_overlen hl hover, fun hmax hshort => ?_, fun c hmax hc => ?_⟩
    · exact unframe_of_short hl hmax (by simpa using hshort)
    · have hget : body[l]? = some c := by simpa [Nat.add_comm] using hc
      obtain ⟨s, rest, rfl, hlen⟩ := exists_append_cons_of_getElem? hget
      have htake : (s ++ c :: rest).take l = s := List.take_left' hlen
      have hdrop : (s ++ c :: rest).drop (l + 1) = rest := by simp [← hlen]
      have hcall := unframe_of_complete hl c rest hmax hlen
      simp only [List.drop_succ_cons, htake, hdrop]
      exact ⟨fun hok => hcall.trans (if_pos hok), fun hbad => hcall.trans (if_neg hbad)⟩

/-- Settles O44: what each outcome leaves by the shape of its input, and the recursion call by call. -/
theorem unframeAllFollowsItsRecursion : Obligations.UnframeAllFollowsItsRecursion := by
  refine fun p w => ⟨fun rest h => ?_, fun l rest h => ?_, fun payload rest h => ?_, fun rest h => ?_, fun h => ?_,
    fun rest h => ⟨unframe_rest_length_lt h, ?_⟩⟩
  · cases UnframeReads.of_eq h with
    | badDelimiter => rfl
  · cases UnframeReads.of_eq h with
    | overlen => rfl
  · cases UnframeReads.of_eq h with
    | ok => simp
  · cases UnframeReads.of_eq h with
    | checksumError hi lo s c _ _ hlen =>
      exact ⟨hi, lo, rfl, rfl, by simp [← hlen]⟩
  · have hrest : (unframe p w).rest = none := by rw [h]; rfl
    simp [unframeAll, unframeCalls_of_incomplete hrest]
  · simp [unframeAll, unframeCalls_of_rest h]

end Sys2Proof
end

section
/-! PROOFS. Frames: what `frame` builds and what `unframe` makes of a frame that arrives whole, cut short or changed
(40_envelope_functions.md R105, R106, R110 to R113). -/

namespace Sys2Proof.Machine

/-- The envelope as a header and what the checksum byte ends (R105). -/
theorem envelope_eq (p : Params) (s : List Byte) :
    envelope p s = p.startDelim :: BitVec.ofNat 8 (s.length / 256) :: BitVec.ofNat 8 (s.length % 256) ::
      (s ++ [checksum s]) := rfl

theorem length_le_of_le_maxPayload {p : Params} {n : Nat} (h : n ≤ p.maxPayload.val) : n ≤ 65535 := by
  have := p.maxPayload.isLt
  omega

/-- Behind the header of a payload, as many bytes and a checksum byte are judged by that byte, whatever follows. -/
theorem unframe_frame_header {p : Params} {n : Nat} {s : List Byte} (c : Byte) (tail : List Byte)
    (hmax : n ≤ p.maxPayload.val) (hlen : s.length = n) :
    unframe p (p.startDelim :: BitVec.ofNat 8 (n / 256) :: BitVec.ofNat 8 (n % 256) :: (s ++ c :: tail)) =
      if c = checksum s then .ok s tail else .checksumError tail :=
  unframe_of_complete (length_bytes n (length_le_of_le_maxPayload hmax)).symm c tail hmax hlen

theorem unframe_envelope_append {p : Params} {s : List Byte} (tail : List Byte) (h : s.length ≤ p.maxPayload.val) :
    unframe p (envelope p s ++ tail) = .ok s tail := by
  have happ : envelope p s ++ tail = p.startDelim :: BitVec.ofNat 8 (s.length / 256) ::
      BitVec.ofNat 8 (s.length % 256) :: (s ++ checksum s :: tail) := by simp [envelope_eq]
  rw [happ, unframe_frame_header _ tail h rfl, if_pos rfl]

/-- A payload of the length sent passes with any checksum byte that completes its sum to `0xFF` (R103, R112). -/
theorem unframe_substituted {p : Params} {sent got : List Byte} {c : Byte} (tail : List Byte)
    (h : sent.length ≤ p.maxPayload.val) (hlen : got.length = sent.length)
    (hsum : (byteSum got + c.toNat) % 256 = 0xFF) :
    unframe p ((envelope p sent).take 3 ++ got ++ [c] ++ tail) = .ok got tail := by
  have happ : (envelope p sent).take 3 ++ got ++ [c] ++ tail = p.startDelim :: BitVec.ofNat 8 (sent.length / 256) ::
      BitVec.ofNat 8 (sent.length % 256) :: (got ++ c :: tail) := by simp [envelope_eq]
  have hc : c = checksum got := (eq_checksum_iff_byteSum got c).mpr (by simpa using hsum)
  rw [happ, unframe_frame_header c tail h hlen, if_pos hc]

/-- Another byte anywhere from the first payload byte to the checksum byte is detected: payload and checksum byte no
longer sum to `0xFF` (R103, R111). -/
theorem unframe_envelope_set {p : Params} {s : List Byte} {n : Nat} {b x : Byte} (h : s.length ≤ p.maxPayload.val)
    (hget : (s ++ [checksum s])[n]? = some b) (hne : x ≠ b) :
    unframe p ((envelope p s).set (n + 3) x) = .checksumError [] := by
  obtain ⟨s', c, hbody⟩ : ∃ s' c, (s ++ [checksum s]).set n x = s' ++ [c] :=
    (List.eq_nil_or_concat' _).resolve_left (by simp)
  have hlen : s'.length = s.length := by
    have := congrArg List.length hbody
    simpa using this.symm
  have hsum : byteSum (s' ++ [c]) % 256 ≠ 0xFF := by
    rw [← hbody, ← byteSum_append_checksum s]
    exact byteSum_set_mod_ne hget hne
  rw [envelope_eq, List.set_cons_succ, List.set_cons_succ, List.set_cons_succ, hbody,
    unframe_frame_header c [] h hlen, if_neg (mt (eq_checksum_iff_byteSum s' c).mp hsum)]

theorem unframe_envelope_take {p : Params} {s : List Byte} {n : Nat} (h : s.length ≤ p.maxPayload.val)
    (hn : n < s.length + 4) : unframe p ((envelope p s).take n) = .incomplete := by
  match n with
  | 0 => exact unframe_nil p
  | 1 => exact unframe_one p
  | 2 => exact unframe_two p _
  | n + 3 =>
    have hl := length_bytes s.length (length_le_of_le_maxPayload h)
    exact unframe_of_short hl.symm h (by simp; omega)

end Sys2Proof.Machine

namespace Sys2Proof

open Machine

/-- Settles O42: `frame` is the envelope up to 65535 bytes and refuses beyond. -/
theorem frameBuildsTheEnvelope : Obligations.FrameBuildsTheEnvelope := fun p payload =>
  ⟨fun h => ⟨envelope p payload, frame_of_le p h, envelope_length p payload, rfl⟩, frame_of_gt p, rfl⟩

/-- Settles O45: a frame is an envelope with its own checksum. -/
theorem unframeUndoesFrame : Obligations.UnframeUndoesFrame := fun p payload tail h =>
  ⟨envelope p payload, frame_of_le p (length_le_of_le_maxPayload h), unframe_envelope_append tail h⟩

/-- Settles O46: a flipped bit is another byte. -/
theorem singleBitCorruptionIsDetected : Obligations.SingleBitCorruptionIsDetected := by
  refine fun p payload k h hk => ⟨fun n b hn _ hget => ?_, ?_⟩
  · obtain ⟨m, rfl⟩ := Nat.exists_eq_add_of_le' hn
    exact unframe_envelope_set h hget (xor_twoPow_ne b hk)
  · exact unframe_of_ne p _ (xor_twoPow_ne p.startDelim hk)

/-- Settles O47: the checksum sees the sum of the payload alone. -/
theorem changesThatKeepTheSumPass : Obligations.ChangesThatKeepTheSumPass := by
  refine fun p sent got tail h hlen => ⟨fun hsum => ?_, byteSum_perm, fun c => unframe_substituted tail h hlen⟩
  refine unframe_substituted tail h hlen ?_
  have := checksum_toNat sent
  omega

/-- Settles O48: a cut falls before the length is known, or leaves fewer bytes than the length announces. -/
theorem strictPrefixesAreIncomplete : Obligations.StrictPrefixesAreIncomplete :=
  fun _ _ _ h hn => unframe_envelope_take h hn

end Sys2Proof
end

section
/-! PROOFS. The TX framer op by op: TX_NOP, TX_START, TX_BYTE, TX_CLRF (41_tx_framer.md R121 to R124). -/

namespace Sys2Proof.Machine

/-- The header with its length bytes as numbers, the high one first (R72, R122). -/
theorem header_eq (p : Params) (l : Len) :
    header p l = [p.startDelim, BitVec.ofNat 8 (l.toNat / 256), BitVec.ofNat 8 (l.toNat % 256)] := by
  rw [← lenHigh_toNat, ← lenLow_toNat]
  simp only [BitVec.ofNat_toNat, BitVec.setWidth_eq, header]

/-- The running sum after a byte `d`, as a number (R101, R123). -/
theorem addSum_eq_ofNat (sum d : Byte) : addSum sum d = BitVec.ofNat 8 ((sum.toNat + d.toNat) % 256) := by
  rw [← addSum_toNat, BitVec.ofNat_toNat, BitVec.setWidth_eq]

/-- The checksum byte behind a last byte `d`, as a number (R102, R123). -/
theorem cksumOf_addSum (sum d : Byte) :
    cksumOf (addSum sum d) = BitVec.ofNat 8 (0xFF - (sum.toNat + d.toNat) % 256) := by
  rw [← addSum_toNat, ← cksumOf_toNat, BitVec.ofNat_toNat, BitVec.setWidth_eq]

/-- A quiet TX step replaces the TX state and clears the TX outputs. -/
theorem State.withTx_quietTx (s : State) (t : TxState) :
    s.withTx (quietTx t) = { s with tx := t, txOut := [], txEvent := .none } := by
  simp [State.withTx, quietTx]

/-- A refused TX op sets the flag and reports `SEQ_ERR`; nothing else of the machine changes (R176). -/
theorem State.withTx_raiseTx_seqErr (s : State) :
    s.withTx (raiseTx s.tx .seqErr) = { s with tx := { s.tx with flags := 1 }, txOut := [], txEvent := .seqErr } := by
  have hflag : setFlags s.tx.flags TxEvent.seqErr.flag = 1 := BitVec.or_allOnes
  simp [State.withTx, raiseTx, hflag]

/-- A closed framer is as closing leaves it. -/
theorem closeTx_eq_self {t : TxState} (hidle : t.state = .idle) (hlen : t.len = 0) (hcnt : t.cnt = 0)
    (hsum : t.sum = 0) : closeTx t = t := by
  cases t
  cases hidle
  cases hlen
  cases hcnt
  cases hsum
  rfl

/-- Every TX op ends in a next state: its result put into the machine. -/
theorem exec_of_txStep {i : Instr} {s : State} {res : TxResult} (h : txStep s.params s.tx i = some res) :
    exec i s = .next (s.withTx res) := by
  cases i <;> cases h <;> rfl

theorem exec_txStart {s : State} {l : Len} {res : TxResult} (h : txStart s.params s.tx l = res) :
    exec (.txStart l) s = .next (s.withTx res) :=
  exec_of_txStep (congrArg some h)

theorem exec_txByte {s : State} {d : Byte} {res : TxResult} (h : txByte s.tx d = res) :
    exec (.txByte d) s = .next (s.withTx res) :=
  exec_of_txStep (congrArg some h)

theorem txStart_empty {p : Params} {t : TxState} (hidle : t.state = .idle) :
    txStart p t 0#16 = { tx := t, out := [p.startDelim, 0x00, 0x00, 0xFF], ev := .frameDone } := by
  simp [txStart, hidle]

theorem txStart_opens {p : Params} {t : TxState} {l : Len} (hidle : t.state = .idle) (hl : l ≠ 0#16) :
    txStart p t l =
      { tx := { t with len := l, cnt := 0, sum := 0, state := .body }, out := header p l, ev := .none } := by
  simp [txStart, hidle, hl]

theorem txStart_refused {p : Params} {t : TxState} {l : Len} (hbody : t.state = .body) :
    txStart p t l = raiseTx t .seqErr := by
  simp [txStart, hbody]

theorem txByte_last {t : TxState} {d : Byte} (hbody : t.state = .body) (hlast : t.cnt.toNat + 1 = t.len.toNat) :
    txByte t d = { tx := closeTx t, out := [d, cksumOf (addSum t.sum d)], ev := .frameDone } := by
  simp [txByte, hbody, hlast]

theorem txByte_passes {t : TxState} {d : Byte} (hbody : t.state = .body) (hmore : t.cnt.toNat + 1 ≠ t.len.toNat) :
    txByte t d = { tx := { t with sum := addSum t.sum d, cnt := t.cnt + 1 }, out := [d], ev := .none } := by
  simp [txByte, hbody, hmore]

theorem txByte_refused {t : TxState} {d : Byte} (hidle : t.state = .idle) : txByte t d = raiseTx t .seqErr := by
  simp [txByte, hidle]

end Sys2Proof.Machine

namespace Sys2Proof

open Machine

/-- Settles O14: the op's result is the quiet one on the TX state as it is. -/
theorem txNopChangesNothing : Obligations.TxNopChangesNothing := fun s =>
  (exec_of_txStep rfl).trans (congrArg _ (s.withTx_quietTx s.tx))

/-- Settles O15: the empty frame, the opened frame, and the refusal. -/
theorem txStartOpensAFrame : Obligations.TxStartOpensAFrame := by
  refine fun s l => ⟨fun hidle hl => ?_, fun hidle hl => ?_, fun hbody => ?_⟩
  · subst hl
    exact exec_txStart (txStart_empty hidle)
  · rw [← header_eq]
    exact exec_txStart (txStart_opens hidle hl)
  · rw [← State.withTx_raiseTx_seqErr]
    exact exec_txStart (txStart_refused hbody)

/-- Settles O16: the last byte with the checksum, a byte before it, and the refusal. -/
theorem txBytePassesAPayloadByte : Obligations.TxBytePassesAPayloadByte := by
  refine fun s d => ⟨fun hbody hlast => ?_, fun hbody hmore => ?_, fun hidle => ?_⟩
  · rw [← cksumOf_addSum]
    exact exec_txByte (txByte_last hbody hlast)
  · rw [← addSum_eq_ofNat, BitVec.ofNat_add, BitVec.ofNat_toNat, BitVec.setWidth_eq]
    exact exec_txByte (txByte_passes hbody hmore)
  · rw [← State.withTx_raiseTx_seqErr]
    exact exec_txByte (txByte_refused hidle)

/-- Settles O17: a quiet step with the masked flag cleared, and `f AND NOT 1 = 0`, `f AND NOT 0 = f`. -/
theorem txClrfClearsTheFlag : Obligations.TxClrfClearsTheFlag := by
  intro s
  have hclear : clearFlags s.tx.flags 1 = 0 := BitVec.and_zero
  have hkeep : clearFlags s.tx.flags 0 = s.tx.flags := BitVec.and_allOnes
  have hexec (m : BitVec 1) : exec (.txClrf m) s =
      .next { s with tx := { s.tx with flags := clearFlags s.tx.flags m }, txOut := [], txEvent := .none } := by
    rw [exec_of_txStep rfl, State.withTx_quietTx]
  exact ⟨by rw [hexec, hclear], by rw [hexec, hkeep]⟩

end Sys2Proof
end

section
/-! PROOFS. The framer emits exactly `frame(P)` (41_tx_framer.md R127): first the ops of the payload alone, then the
fillers between them, which the emitted bytes do not depend on. -/

namespace Sys2Proof.Machine

/-- The accumulator is the sum modulo 256 (R101). -/
theorem acc_toNat (s : List Byte) : (acc s).toNat = byteSum s % 256 := by
  induction s using List.reverseRecOn with
  | nil => rfl
  | append_singleton s b ih =>
    rw [acc_snoc, addSum_toNat, ih, byteSum_append, byteSum_cons, byteSum_nil]
    omega

/-- The byte the framer sends last is the checksum of the payload (R102). -/
theorem cksumOf_acc (s : List Byte) : cksumOf (acc s) = checksum s := by
  apply BitVec.eq_of_toNat_eq
  rw [cksumOf_toNat, checksum_toNat, acc_toNat]

/-- An envelope whose length fits the length field, with its header as the framer sends it (R105, R122). -/
theorem envelope_eq_header (p : Params) {s : List Byte} (h : s.length ≤ 65535) :
    envelope p s = header p (BitVec.ofNat 16 s.length) ++ s ++ [checksum s] := by
  rw [header_eq, BitVec.toNat_ofNat, Nat.mod_eq_of_lt (by omega), envelope]

/-- A run that one more op follows. -/
theorem execAll_snoc_of_next {ops : List Instr} {i : Instr} {s t u : State} (hrun : execAll ops s = .next t)
    (hstep : exec i t = .next u) : execAll (ops ++ [i]) s = .next u := by
  rw [execAll_append_of_next hrun, execAll_singleton, hstep]

/-- The line of a TX op shows the event of its result. -/
theorem traceEntry_txEvent_of_tx {i : Instr} (t : State) (h : i.port = .tx) : (traceEntry i t).txEvent = t.txEvent := by
  simp [traceEntry, h]

/-- The events of a run that one more TX op follows. -/
theorem traceOf_snoc_txEvents {ops : List Instr} {i : Instr} {s t u : State} (hport : i.port = .tx)
    (hrun : execAll ops s = .next t) (hstep : exec i t = .next u) :
    (traceOf (ops ++ [i]) s).map (·.txEvent) = (traceOf ops s).map (·.txEvent) ++ [u.txEvent] := by
  rw [traceOf_append_of_next hrun, traceOf_cons_of_next hstep, traceOf_nil, List.map_append, List.map_singleton,
    traceEntry_txEvent_of_tx u hport]

/-- The ops of a frame that announces `n` bytes and supplies `bs`. -/
def frameOps (n : Len) (bs : List Byte) : List Instr := .txStart n :: bs.map .txByte

theorem frameOps_snoc (n : Len) (bs : List Byte) (d : Byte) :
    frameOps n (bs ++ [d]) = frameOps n bs ++ [.txByte d] := by
  simp [frameOps]

theorem frameOps_port {n : Len} {bs : List Byte} {i : Instr} (h : i ∈ frameOps n bs) : i.port = .tx := by
  simp only [frameOps, List.mem_cons, List.mem_map] at h
  rcases h with rfl | ⟨d, -, rfl⟩ <;> rfl

/-- `t` is `s` with a frame of `n` bytes opened, of which `bs` have passed. -/
structure FrameOpened (s : State) (n : Len) (bs : List Byte) (t : State) : Prop where
  tx : t.tx = { state := .body, len := n, cnt := BitVec.ofNat 16 bs.length, sum := acc bs, flags := s.tx.flags }
  wire : t.wireOut = s.wireOut ++ (header s.params n ++ bs)

/-- While bytes are owed, the ops of a frame leave it open, with the bytes supplied on the wire and nothing raised. -/
theorem execAll_frameOps_owing {s : State} {n : Len} {bs : List Byte} (hidle : s.tx.state = .idle)
    (howed : bs.length < n.toNat) :
    ∃ t, execAll (frameOps n bs) s = .next t ∧ FrameOpened s n bs t ∧
      (traceOf (frameOps n bs) s).map (·.txEvent) = List.replicate (bs.length + 1) .none := by
  induction bs using List.reverseRecOn with
  | nil =>
    have hn : n ≠ 0#16 := by
      rintro rfl
      exact Nat.not_lt_zero _ howed
    have hstart := exec_txStart (txStart_opens hidle hn)
    refine ⟨_, (execAll_singleton _ s).trans hstart, ⟨rfl, ?_⟩, ?_⟩
    · rw [List.append_nil]
      rfl
    · exact traceOf_snoc_txEvents (ops := []) rfl rfl hstart
  | append_singleton bs d ih =>
    rw [List.length_append, List.length_singleton] at howed
    obtain ⟨t, hrun, hopen, hev⟩ := ih (by omega)
    have hmore : t.tx.cnt.toNat + 1 ≠ t.tx.len.toNat := by
      simp only [hopen.tx, BitVec.toNat_ofNat]
      omega
    have hbyte := exec_txByte (txByte_passes (d := d) (by rw [hopen.tx]) hmore)
    refine ⟨_, frameOps_snoc n bs d ▸ execAll_snoc_of_next hrun hbyte, ⟨?_, ?_⟩, ?_⟩
    · simp [hopen.tx, acc_snoc, BitVec.ofNat_add]
    · simp [hopen.wire]
    · rw [frameOps_snoc, traceOf_snoc_txEvents rfl hrun hbyte, hev, List.length_append, List.length_singleton,
        List.replicate_succ' (n := bs.length + 1)]
      rfl

/-- The ops of a whole payload emit its envelope, raise `FRAME_DONE` last and nothing before, and leave the framer
closed. -/
theorem execAll_frameOps {s : State} {payload : List Byte} (hinv : s.Inv) (hidle : s.tx.state = .idle)
    (hfits : payload.length ≤ 65535) :
    ∃ t, execAll (frameOps (BitVec.ofNat 16 payload.length) payload) s = .next t ∧
      t.wireOut = s.wireOut ++ envelope s.params payload ∧ t.tx = closeTx s.tx ∧
      (traceOf (frameOps (BitVec.ofNat 16 payload.length) payload) s).map (·.txEvent) =
        List.replicate payload.length .none ++ [.frameDone] := by
  rcases List.eq_nil_or_concat' payload with rfl | ⟨bs, d, rfl⟩
  · have hstart := exec_txStart (txStart_empty hidle)
    obtain ⟨-, hclosed, -⟩ := hinv
    obtain ⟨hlen, hcnt, hsum⟩ := hclosed hidle
    refine ⟨_, (execAll_singleton _ s).trans hstart, rfl, (closeTx_eq_self hidle hlen hcnt hsum).symm,
      traceOf_snoc_txEvents (ops := []) rfl rfl hstart⟩
  · have hn : (BitVec.ofNat 16 (bs ++ [d]).length).toNat = bs.length + 1 := by
      rw [List.length_append, List.length_singleton] at hfits ⊢
      exact Nat.mod_eq_of_lt (by omega)
    obtain ⟨t, hrun, hopen, hev⟩ := execAll_frameOps_owing (bs := bs) hidle (by rw [hn]; exact Nat.lt_succ_self _)
    have hlast : t.tx.cnt.toNat + 1 = t.tx.len.toNat := by
      simp only [hopen.tx, hn, BitVec.toNat_ofNat]
      rw [List.length_append] at hfits
      omega
    have hbyte := exec_txByte (txByte_last (d := d) (by rw [hopen.tx]) hlast)
    refine ⟨_, frameOps_snoc _ bs d ▸ execAll_snoc_of_next hrun hbyte, ?_, ?_, ?_⟩
    · rw [envelope_eq_header _ hfits, ← cksumOf_acc, acc_snoc]
      simp [hopen.wire, hopen.tx]
    · simp [closeTx, hopen.tx]
    · rw [frameOps_snoc, traceOf_snoc_txEvents rfl hrun hbyte, hev, List.length_append, List.length_singleton]
      rfl

/-- What the emitted bytes may depend on: parameters, position, length, count, sum and the stream so far, but neither
the flag nor the outputs (R32, R127). -/
structure State.FramesAlike (a b : State) : Prop where
  params : a.params = b.params
  view : a.tx.view = b.tx.view
  wire : a.wireOut = b.wireOut

/-- A TX step takes states that differ in the flag only to such states, with the same bytes emitted. -/
theorem txStep_of_view_eq {p : Params} {t u : TxState} {i : Instr} {res : TxResult} (h : t.view = u.view)
    (hres : txStep p t i = some res) :
    ∃ res', txStep p u i = some res' ∧ res.tx.view = res'.tx.view ∧ res.out = res'.out := by
  obtain ⟨state, len, cnt, sum, flags⟩ := t
  obtain ⟨_, _, _, _, flags'⟩ := u
  cases h
  cases i
  case rxNop | rxByte | rxAbort | rxClrf | reset => cases hres
  case txNop => cases hres; exact ⟨_, rfl, rfl, rfl⟩
  case txStart l =>
    cases hres
    refine ⟨_, rfl, ?_⟩
    cases state
    case idle =>
      by_cases hl : l = 0#16
      · subst hl
        rw [txStart_empty rfl, txStart_empty rfl]
        exact ⟨rfl, rfl⟩
      · rw [txStart_opens rfl hl, txStart_opens rfl hl]
        exact ⟨rfl, rfl⟩
    case body => exact ⟨rfl, rfl⟩
  case txByte d =>
    cases hres
    refine ⟨_, rfl, ?_⟩
    cases state
    case idle => exact ⟨rfl, rfl⟩
    case body =>
      by_cases hlast : cnt.toNat + 1 = len.toNat
      · rw [txByte_last rfl hlast, txByte_last rfl hlast]
        exact ⟨rfl, rfl⟩
      · rw [txByte_passes rfl hlast, txByte_passes rfl hlast]
        exact ⟨rfl, rfl⟩
  case txClrf m => cases hres; exact ⟨_, rfl, rfl, rfl⟩

/-- The same for a TX op of the machine. -/
theorem exec_framesAlike {i : Instr} {a b a' : State} (hport : i.port = .tx) (h : a.FramesAlike b)
    (hexec : exec i a = .next a') : ∃ b', exec i b = .next b' ∧ a'.FramesAlike b' := by
  rcases exec_next_cases hexec with ⟨hrx, -⟩ | ⟨-, res, hres, rfl⟩ | ⟨rfl, -⟩
  · cases hport.symm.trans hrx
  · rw [h.params] at hres
    obtain ⟨res', hres', hview, hout⟩ := txStep_of_view_eq h.view hres
    exact ⟨_, exec_of_txStep hres', h.params, hview, by simp [h.wire, hout]⟩
  · cases hport

/-- A filler changes nothing that the emitted bytes depend on. -/
theorem exec_txFiller {i : Instr} (s : State) (h : i.txFiller = true) :
    ∃ t, exec i s = .next t ∧ s.FramesAlike t := by
  cases i
  case rxNop | rxByte | rxAbort | rxClrf | txStart | txByte | reset => cases h
  case txNop => exact ⟨_, rfl, rfl, rfl, (List.append_nil _).symm⟩
  case txClrf m => exact ⟨_, rfl, rfl, rfl, (List.append_nil _).symm⟩

/-- Fillers inserted anywhere in a run of TX ops do not change the emitted bytes. -/
theorem execAll_insert_fillers {ops : List Instr} {a b a' : State}
    (hport : ∀ i ∈ ops.filter (fun i => !i.txFiller), i.port = .tx) (h : a.FramesAlike b)
    (hrun : execAll (ops.filter fun i => !i.txFiller) a = .next a') :
    ∃ b', execAll ops b = .next b' ∧ a'.FramesAlike b' := by
  induction ops generalizing a b with
  | nil => cases hrun; exact ⟨b, rfl, h⟩
  | cons i ops ih =>
    by_cases hfill : i.txFiller = true
    · rw [List.filter_cons_of_neg (by simp [hfill])] at hport hrun
      obtain ⟨c, hexec, hc⟩ := exec_txFiller b hfill
      rw [execAll_cons_of_next hexec]
      exact ih hport ⟨h.params.trans hc.params, h.view.trans hc.view, h.wire.trans hc.wire⟩ hrun
    · rw [List.filter_cons_of_pos (by simp [hfill])] at hport hrun
      obtain ⟨hi, hops⟩ := List.forall_mem_cons.mp hport
      obtain ⟨c, hexec, hrest⟩ := execAll_cons_next hrun
      obtain ⟨d, hexec', hcd⟩ := exec_framesAlike hi h hexec
      rw [execAll_cons_of_next hexec']
      exact ih hops hcd hrest

end Sys2Proof.Machine

namespace Sys2Proof

open Machine

/-- Settles O21: the run of the payload's ops alone, and its wire carried over to any run with fillers. -/
theorem framerAgreesWithFrame : Obligations.FramerAgreesWithFrame := by
  intro s payload hinv hidle hfits
  obtain ⟨t, hrun, hwire, htx, hev⟩ := execAll_frameOps hinv hidle hfits
  refine ⟨⟨t, _, hrun, frame_of_le _ hfits, hwire, htx, hev⟩, fun ops hops => ?_⟩
  change _ = frameOps _ payload at hops
  rw [← hops] at hrun
  obtain ⟨u, hrun', halike⟩ :=
    execAll_insert_fillers (fun i hi => frameOps_port (hops ▸ hi)) ⟨rfl, rfl, rfl⟩ hrun
  exact ⟨u, _, hrun', frame_of_le _ hfits, halike.wire.symm.trans hwire⟩

end Sys2Proof
end

section
/-! PROOFS. The RX unframer op by op: RX_NOP, RX_BYTE, RX_ABORT, RX_CLRF (42_rx_unframer.md R141 to R151). -/

namespace Sys2Proof.Machine

/-! ### The result of an op, put into the machine -/

/-- An RX op whose rule gives a result ends in a next state: the result put into the machine. -/
theorem exec_of_rxStep {i : Instr} {s : State} {res : RxResult} (h : rxStep s.params s.rx i = some (.ok res)) :
    exec i s = .next (s.withRx res) := by
  cases i
  case rxNop | rxAbort | rxClrf => cases h; rfl
  case rxByte d => exact congrArg (finishRx s) (Option.some.inj h)
  case txNop | txStart | txByte | txClrf | reset => cases h

theorem exec_rxByte {s : State} {d : Byte} {res : RxResult} (h : rxByte s.params s.rx d = .ok res) :
    exec (.rxByte d) s = .next (s.withRx res) :=
  exec_of_rxStep (congrArg some h)

/-- A quiet RX step replaces the RX state and clears the RX event output. -/
theorem State.withRx_quietRx (s : State) (r : RxState) :
    s.withRx (quietRx r) = { s with rx := r, rxEvent := .none } := by
  simp [State.withRx, quietRx]

/-- A step that raises an event shows it, delivers it and sets its flag. -/
theorem State.withRx_raiseRx (s : State) (r : RxState) {e : RxEvent} (he : e ≠ .none) :
    s.withRx (raiseRx r e) =
      { s with rx := { r with flags := r.flags ||| e.flag }, rxEvent := e, delivered := s.delivered ++ [e] } := by
  simp [State.withRx, setFlags, RxEvent.onChannel_of_ne he]

/-- A quiet RX op, in the machine. -/
theorem exec_of_quiet {i : Instr} {s : State} {r : RxState}
    (h : rxStep s.params s.rx i = some (.ok (quietRx r))) : exec i s = .next { s with rx := r, rxEvent := .none } := by
  rw [exec_of_rxStep h, State.withRx_quietRx]

/-- A byte that raises an event, in the machine. -/
theorem exec_rxByte_of_raise {s : State} {r : RxState} {d : Byte} {e : RxEvent} (he : e ≠ .none)
    (h : rxByte s.params s.rx d = .ok (raiseRx r e)) :
    exec (.rxByte d) s = .next
      { s with rx := { r with flags := r.flags ||| e.flag }, rxEvent := e, delivered := s.delivered ++ [e] } := by
  rw [exec_rxByte h, State.withRx_raiseRx s r he]

/-- A byte that raises nothing, in the machine. -/
theorem exec_rxByte_of_quiet {s : State} {r : RxState} {d : Byte} (h : rxByte s.params s.rx d = .ok (quietRx r)) :
    exec (.rxByte d) s = .next { s with rx := r, rxEvent := .none } :=
  exec_of_quiet (congrArg some h)

theorem exec_rxAbort {s : State} {r : RxState} (h : rxAbort s.rx = quietRx r) :
    exec .rxAbort s = .next { s with rx := r, rxEvent := .none } :=
  exec_of_quiet (congrArg (fun res => some (Except.ok res)) h)

/-! ### `RX_BYTE`, row by row of R155 -/

section Rows

variable {p : Params} {r : RxState} {d : Byte}

theorem rxByte_delimiter (hstate : r.state = .hunt) (hd : d = p.startDelim) :
    rxByte p r d = .ok (quietRx { r with state := .lenHi }) := by
  simp [rxByte, rxByteHunt, hstate, hd]

theorem rxByte_badDelim (hstate : r.state = .hunt) (hd : d ≠ p.startDelim) :
    rxByte p r d = .ok (raiseRx r (.badDelim p.startDelim d)) := by
  simp [rxByte, rxByteHunt, hstate, hd]

theorem rxByte_lenHi (hstate : r.state = .lenHi) :
    rxByte p r d = .ok (quietRx { r with len := lenOfBytes d 0, state := .lenLo }) := by
  simp [rxByte, rxByteLenHi, hstate]

theorem rxByte_overlen (hstate : r.state = .lenLo)
    (hover : p.maxPayload.val < (lenOfBytes (lenHigh r.len) d).toNat) :
    rxByte p r d = .ok (raiseRx (closeRx r) (.overlen (lenOfBytes (lenHigh r.len) d))) := by
  simp [rxByte, rxByteLenLo, hstate, hover]

theorem rxByte_emptyPayload (hstate : r.state = .lenLo) (hzero : lenOfBytes (lenHigh r.len) d = 0#16) :
    rxByte p r d = .ok (quietRx { r with len := 0, state := .cksum }) := by
  simp [rxByte, rxByteLenLo, hstate, hzero]

theorem rxByte_length (hstate : r.state = .lenLo)
    (hmax : (lenOfBytes (lenHigh r.len) d).toNat ≤ p.maxPayload.val)
    (hpos : lenOfBytes (lenHigh r.len) d ≠ 0#16) :
    rxByte p r d = .ok (quietRx { r with len := lenOfBytes (lenHigh r.len) d, state := .payload }) := by
  simp [rxByte, rxByteLenLo, hstate, hpos, Nat.not_lt.mpr hmax]

theorem rxByte_collect (hstate : r.state = .payload) (hroom : r.cnt.toNat < p.maxPayload.val) :
    rxByte p r d = .ok (quietRx
      { r with
        state := if r.cnt.toNat + 1 = r.len.toNat then .cksum else .payload
        cnt := r.cnt + 1
        sum := addSum r.sum d
        buf := Memory.write r.buf r.cnt.toNat d }) := by
  simp [rxByte, rxBytePayload, hstate, memWrite_eq_ok.mpr ⟨hroom, rfl⟩]

theorem rxByte_match {payload : List Byte} (hstate : r.state = .cksum) (hcnt : r.cnt = r.len)
    (hcollected : r.collected = some payload) (hd : d = cksumOf r.sum) :
    rxByte p r d = .ok { rx := closeRx r, ev := .frameOk r.len (cksumOf r.sum) d payload } := by
  have hread : memRead r 0 r.len.toNat = .ok payload := by
    rw [memRead_eq_ok, ← hcnt, Nat.zero_add]
    exact ⟨le_rfl, hcollected⟩
  simp [rxByte, rxByteCksum, hstate, hd, hread]

theorem rxByte_mismatch (hstate : r.state = .cksum) (hd : d ≠ cksumOf r.sum) :
    rxByte p r d = .ok (raiseRx (closeRx r) (.cksumErr r.len (cksumOf r.sum) d)) := by
  simp [rxByte, rxByteCksum, hstate, hd]

end Rows

/-- The length that the byte `d` completes, as a number (R72, R145). -/
theorem lenOfBytes_lenHigh_toNat (l : Len) (d : Byte) :
    (lenOfBytes (lenHigh l) d).toNat = 256 * (l.toNat / 256) + d.toNat := by
  rw [lenOfBytes_toNat, lenHigh_toNat]

theorem lenOfBytes_eq_ofNat (hi lo : Byte) : lenOfBytes hi lo = BitVec.ofNat 16 (256 * hi.toNat + lo.toNat) := by
  rw [← lenOfBytes_toNat, BitVec.ofNat_toNat, BitVec.setWidth_eq]

/-- In CKSUM the whole payload is in the buffer, and `rx.sum` gives its checksum (R24, R27). -/
theorem RxInv.cksum {p : Params} {r : RxState} (h : RxInv p r) (hstate : r.state = .cksum) :
    ∃ payload, r.collected = some payload ∧ r.cnt = r.len ∧ cksumOf r.sum = checksum payload := by
  obtain ⟨payload, hcollected, hacc⟩ := h.collected
  obtain ⟨-, -, -, hrow, -⟩ := h
  exact ⟨payload, hcollected, (hrow hstate).2, by rw [← hacc, cksumOf_acc]⟩

/-- A closed unframer is as closing leaves it. -/
theorem closeRx_eq_self {r : RxState} (hstate : r.state = .hunt) (hlen : r.len = 0) (hcnt : r.cnt = 0)
    (hsum : r.sum = 0) : closeRx r = r := by
  cases r
  cases hstate
  cases hlen
  cases hcnt
  cases hsum
  rfl

/-! ### `RX_ABORT` -/

theorem rxAbort_open {r : RxState} (hopen : r.state ≠ .hunt) :
    rxAbort r = quietRx { closeRx r with flags := r.flags ||| 0b1000#4 } := by
  simp [rxAbort, hopen, setFlags, abortedFlag]

theorem rxAbort_hunt {r : RxState} (hstate : r.state = .hunt) : rxAbort r = quietRx (closeRx r) := by
  simp [rxAbort, hstate, closeRx]

/-- An abort leaves a closed unframer, to which another does nothing. -/
theorem rxAbort_rxAbort (r : RxState) : rxAbort (rxAbort r).rx = quietRx (rxAbort r).rx :=
  (rxAbort_hunt rfl).trans (congrArg quietRx (closeRx_eq_self rfl rfl rfl rfl))

end Sys2Proof.Machine

namespace Sys2Proof

open Machine

/-- Settles O22: the op's result is the quiet one on the RX state as it is. -/
theorem rxNopChangesNothing : Obligations.RxNopChangesNothing := fun _ => exec_of_quiet rfl

/-- Settles O23: the delimiter, and any other byte. -/
theorem rxByteHuntsForTheDelimiter : Obligations.RxByteHuntsForTheDelimiter := fun _ _ hstate =>
  ⟨fun hd => exec_rxByte_of_quiet (rxByte_delimiter hstate hd),
    fun hd => exec_rxByte_of_raise RxEvent.noConfusion (rxByte_badDelim hstate hd)⟩

/-- Settles O24: the byte is the high byte of a length whose low byte is 0. -/
theorem rxByteTakesTheHighLengthByte : Obligations.RxByteTakesTheHighLengthByte := by
  intro s d hstate
  have hlen : lenOfBytes d 0 = BitVec.ofNat 16 (256 * d.toNat) := lenOfBytes_eq_ofNat d 0
  rw [← hlen]
  exact exec_rxByte_of_quiet (rxByte_lenHi hstate)

/-- Settles O25: the over-long length, the empty payload and the ordinary one, the completed length as a number. -/
theorem rxByteTakesTheLowLengthByte : Obligations.RxByteTakesTheLowLengthByte := by
  intro s d hstate
  have hlen := lenOfBytes_eq_ofNat (lenHigh s.rx.len) d
  rw [lenHigh_toNat] at hlen
  rw [← lenOfBytes_lenHigh_toNat] at hlen ⊢
  rw [← hlen]
  refine ⟨fun hover => ?_, fun hzero => ?_, fun hpos hmax => ?_⟩
  · exact exec_rxByte_of_raise RxEvent.noConfusion (rxByte_overlen hstate hover)
  · exact exec_rxByte_of_quiet (rxByte_emptyPayload hstate (BitVec.eq_of_toNat_eq hzero))
  · have hne : lenOfBytes (lenHigh s.rx.len) d ≠ 0#16 := by
      intro hzero
      simp [hzero] at hpos
    exact exec_rxByte_of_quiet (rxByte_length hstate hmax hne)

/-- Settles O26: the buffer after the byte is the one written at `rx.cnt`. -/
theorem rxByteCollectsAPayloadByte : Obligations.RxByteCollectsAPayloadByte := by
  intro s d hstate hroom
  refine ⟨Memory.write s.rx.buf s.rx.cnt.toNat d, ?_, Memory.read_write_same _ _ _,
    fun a ha => Memory.read_write_other _ _ ha⟩
  rw [← addSum_eq_ofNat, BitVec.ofNat_add, BitVec.ofNat_toNat, BitVec.setWidth_eq]
  exact exec_rxByte_of_quiet (rxByte_collect hstate hroom)

/-- Settles O27: the invariants give the collected payload and its checksum; then the verdict on the byte. -/
theorem rxByteGivesTheVerdict : Obligations.RxByteGivesTheVerdict := by
  intro s d hinv hstate
  obtain ⟨payload, hcollected, hcnt, hcksum⟩ := hinv.1.cksum hstate
  have hexp : BitVec.ofNat 8 (0xFF - s.rx.sum.toNat) = cksumOf s.rx.sum := by
    rw [← cksumOf_toNat, BitVec.ofNat_toNat, BitVec.setWidth_eq]
  refine ⟨payload, hcollected, hcnt ▸ RxState.collected_length hcollected, hexp.trans hcksum, ?_⟩
  rw [← hcksum]
  exact ⟨fun hd => exec_rxByte (rxByte_match hstate hcnt hcollected hd),
    fun hd => exec_rxByte_of_raise RxEvent.noConfusion (rxByte_mismatch hstate hd)⟩

/-- Settles O28: an open envelope, a closed unframer, and an abort after an abort. -/
theorem rxAbortDropsTheEnvelope : Obligations.RxAbortDropsTheEnvelope := by
  refine fun s => ⟨fun hopen => ?_, fun hinv hstate => ?_, ?_⟩
  · exact exec_rxAbort (rxAbort_open hopen)
  · obtain ⟨⟨hclosed, -⟩, -⟩ := hinv
    obtain ⟨hlen, hcnt, hsum⟩ := hclosed (.inl hstate)
    have hsame : rxAbort s.rx = quietRx s.rx := by
      rw [rxAbort_hunt hstate, closeRx_eq_self hstate hlen hcnt hsum]
    exact exec_rxAbort hsame
  · exact ⟨_, exec_rxAbort rfl, exec_rxAbort (rxAbort_rxAbort s.rx)⟩

/-- Settles O29: `f AND NOT m`, bit by bit. -/
theorem rxClrfClearsTheMaskedFlags : Obligations.RxClrfClearsTheMaskedFlags := by
  refine fun s m => ⟨clearFlags s.rx.flags m, exec_of_quiet rfl, fun k hk => ?_⟩
  simp [clearFlags, hk]

end Sys2Proof
end

section
/-! PROOFS. The ops that leave an envelope in progress alone (42_rx_unframer.md R152). -/

namespace Sys2Proof.Machine

/-- `t` has the envelope in progress of `s`, with nothing delivered and no flag set. -/
structure State.KeepsEnvelope (s t : State) : Prop where
  params : t.params = s.params
  view : t.rx.view = s.rx.view
  buf : t.rx.buf = s.rx.buf
  delivered : t.delivered = s.delivered
  flags : ∀ k, t.rx.flags.getLsbD k = true → s.rx.flags.getLsbD k = true

theorem State.KeepsEnvelope.refl (s : State) : s.KeepsEnvelope s := ⟨rfl, rfl, rfl, rfl, fun _ h => h⟩

theorem State.KeepsEnvelope.trans {s t u : State} (h : s.KeepsEnvelope t) (h' : t.KeepsEnvelope u) :
    s.KeepsEnvelope u :=
  ⟨h'.params.trans h.params, h'.view.trans h.view, h'.buf.trans h.buf, h'.delivered.trans h.delivered,
    fun k hk => h.flags k (h'.flags k hk)⟩

theorem State.KeepsEnvelope.state {s t : State} (h : s.KeepsEnvelope t) : t.rx.state = s.rx.state :=
  congrArg RxView.state h.view

theorem State.KeepsEnvelope.alike {s t : State} (h : s.KeepsEnvelope t) : t.rx.Alike s.rx := by
  have hcnt : t.rx.cnt = s.rx.cnt := congrArg RxView.cnt h.view
  exact ⟨h.view, by rw [RxState.collected, RxState.collected, h.buf, hcnt]⟩

/-- Clearing flags sets none. -/
theorem getLsbD_of_clearFlags {n : Nat} (flags mask : BitVec n) (k : Nat)
    (h : (clearFlags flags mask).getLsbD k = true) : flags.getLsbD k = true := by
  rw [clearFlags, BitVec.getLsbD_and, Bool.and_eq_true] at h
  exact h.1

/-- Only a byte, `RX_ABORT` and reset move the unframer. -/
theorem exec_keepsEnvelope {i : Instr} (s : State) (habort : i ≠ .rxAbort) (hreset : i ≠ .reset)
    (hbyte : i.wireByte = none) : ∃ t, exec i s = .next t ∧ s.KeepsEnvelope t := by
  cases i
  case rxByte d => cases hbyte
  case rxAbort => exact absurd rfl habort
  case reset => exact absurd rfl hreset
  case rxNop => exact ⟨_, exec_of_quiet rfl, rfl, rfl, rfl, rfl, fun _ h => h⟩
  case rxClrf m => exact ⟨_, exec_of_quiet rfl, rfl, rfl, rfl, rfl, getLsbD_of_clearFlags _ _⟩
  case txNop | txStart | txByte | txClrf => exact ⟨_, exec_of_txStep rfl, rfl, rfl, rfl, rfl, fun _ h => h⟩

/-- A run of such ops, however long. -/
theorem execAll_keepsEnvelope {ops : List Instr} (s : State)
    (hops : ∀ i ∈ ops, i ≠ .rxAbort ∧ i ≠ .reset ∧ i.wireByte = none) :
    ∃ t, execAll ops s = .next t ∧ s.KeepsEnvelope t := by
  induction ops generalizing s with
  | nil => exact ⟨s, rfl, .refl s⟩
  | cons i ops ih =>
    obtain ⟨⟨habort, hreset, hbyte⟩, hrest⟩ := List.forall_mem_cons.mp hops
    obtain ⟨t, hexec, hkeeps⟩ := exec_keepsEnvelope s habort hreset hbyte
    obtain ⟨u, hrun, hkeeps'⟩ := ih t hrest
    exact ⟨u, (execAll_cons_of_next hexec).trans hrun, hkeeps.trans hkeeps'⟩

/-- INCOMPLETE is 1 outside HUNT (R174). -/
theorem rxStat_incomplete_of_open {r : RxState} (hopen : r.state ≠ .hunt) : (rxStat r).getLsbD 35 = true :=
  (rxStat_incomplete r).trans ((rxIncomplete_bit r).mpr hopen)

end Sys2Proof.Machine

namespace Sys2Proof

open Machine

/-- Settles O33: the run keeps the envelope, and with it the position outside HUNT. -/
theorem openEnvelopeWaitsWithoutLimit : Obligations.OpenEnvelopeWaitsWithoutLimit := by
  intro ops s _ hopen hops
  obtain ⟨t, hrun, hkeeps⟩ := execAll_keepsEnvelope s hops
  exact ⟨t, hrun, hkeeps.view, hkeeps.buf, hkeeps.delivered, hkeeps.flags,
    rxStat_incomplete_of_open (hkeeps.state ▸ hopen)⟩

end Sys2Proof
end

section
/-! PROOFS. The unframer raises exactly the outcomes of `unframe_all` (42_rx_unframer.md R156): a simulation in which
the state of the unframer stands for the bytes that the next call of `unframe` has pending. -/

namespace Sys2Proof.Machine

/-! ### The state that pending bytes stand for -/

/-- Position and registers after the bytes of an envelope that is not complete. -/
def pendingView : List Byte → RxView
  | [] => ⟨.hunt, 0, 0, 0⟩
  | [_] => ⟨.lenHi, 0, 0, 0⟩
  | [_, hi] => ⟨.lenLo, lenOfBytes hi 0, 0, 0⟩
  | _ :: hi :: lo :: body =>
    ⟨if body.length = (lenOfBytes hi lo).toNat then .cksum else .payload, lenOfBytes hi lo,
      BitVec.ofNat 16 body.length, acc body⟩

/-- The unframer has consumed exactly `w` of an envelope that `w` does not complete. -/
structure RxState.Pending (p : Params) (r : RxState) (w : List Byte) : Prop where
  incomplete : unframe p w = .incomplete
  view : r.view = pendingView w
  collected : r.collected = some (w.drop 3)

theorem RxState.view_eq_iff {r : RxState} {state : RxPos} {len cnt : Len} {sum : Byte} :
    r.view = ⟨state, len, cnt, sum⟩ ↔ r.state = state ∧ r.len = len ∧ r.cnt = cnt ∧ r.sum = sum := by
  simp [RxState.view]

/-- The position is HUNT exactly where nothing is pending. -/
theorem pendingView_state_eq_hunt {w : List Byte} : (pendingView w).state = .hunt ↔ w = [] := by
  match w with
  | [] => simp [pendingView]
  | [_] => simp [pendingView]
  | [_, _] => simp [pendingView]
  | _ :: _ :: _ :: _ =>
    simp only [pendingView]
    split <;> simp

theorem RxState.Pending.state_eq_hunt {p : Params} {r : RxState} {w : List Byte} (h : r.Pending p w) :
    r.state = .hunt ↔ w = [] := by
  rw [← pendingView_state_eq_hunt, ← h.view, RxState.view_state]

/-- The pending bytes fix all that the behaviour may depend on. -/
theorem RxState.Pending.alike {p : Params} {a b : RxState} {w : List Byte} (ha : a.Pending p w) (hb : b.Pending p w) :
    a.Alike b :=
  ⟨ha.view.trans hb.view.symm, ha.collected.trans hb.collected.symm⟩

theorem RxState.Pending.of_alike {p : Params} {a b : RxState} {w : List Byte} (h : a.Alike b) (hb : b.Pending p w) :
    a.Pending p w :=
  ⟨hb.incomplete, h.1.trans hb.view, h.2.trans hb.collected⟩

/-- With no payload byte stored, the view alone tells. -/
theorem RxState.Pending.of_cnt_zero {p : Params} {r : RxState} {w : List Byte} (hincomplete : unframe p w = .incomplete)
    (hview : r.view = pendingView w) (hcnt : r.cnt = 0) (hdrop : w.drop 3 = []) : r.Pending p w :=
  ⟨hincomplete, hview, by rw [RxState.collected, hcnt, hdrop]; rfl⟩

theorem RxState.Pending.of_closed {p : Params} {r : RxState} (hview : r.view = ⟨.hunt, 0, 0, 0⟩) : r.Pending p [] :=
  .of_cnt_zero rfl hview (congrArg RxView.cnt hview) rfl

/-- Under the invariants nothing is pending in HUNT (R27). -/
theorem RxInv.pending_nil {p : Params} {r : RxState} (h : RxInv p r) (hstate : r.state = .hunt) : r.Pending p [] := by
  obtain ⟨hclosed, -⟩ := h
  obtain ⟨hlen, hcnt, hsum⟩ := hclosed (.inl hstate)
  exact .of_closed (by simp [RxState.view, hstate, hlen, hcnt, hsum])

/-- A byte stored and counted is collected behind the others (R146). -/
theorem RxState.collected_write {r t : RxState} {bs : List Byte} {d : Byte} (h : r.collected = some bs)
    (hcnt : t.cnt.toNat = r.cnt.toNat + 1) (hbuf : t.buf = Memory.write r.buf r.cnt.toNat d) :
    t.collected = some (bs ++ [d]) := by
  have hwrite := Memory.readRange_write_end r.buf 0 r.cnt.toNat d
  rw [Nat.zero_add] at hwrite
  rw [RxState.collected, hcnt, hbuf, hwrite, ← RxState.collected, h]
  rfl

/-! ### One byte -/

/-- What a byte `d` behind the pending bytes `w` does: it joins them and nothing is raised, or it is the last byte of
a call of `unframe`, whose event is raised and after which nothing is pending. -/
inductive ByteTaken (p : Params) (w : List Byte) (d : Byte) : RxResult → Prop
  | joins {res : RxResult} (quiet : res.ev = .none) (pending : res.rx.Pending p (w ++ [d])) : ByteTaken p w d res
  | ends {res : RxResult} (raised : res.ev ≠ .none) (closed : res.rx.Pending p [])
      (call : ∀ tail, (unframe p (w ++ d :: tail)).rest = some tail ∧
        callEvent p (w ++ d :: tail, unframe p (w ++ d :: tail)) = res.ev) : ByteTaken p w d res

/-- The event of a call that ends in a wrong checksum byte, for a payload that is named. -/
theorem callEvent_checksumError (p : Params) (hi lo c : Byte) (s rest : List Byte) :
    callEvent p (p.startDelim :: hi :: lo :: (s ++ c :: rest), .checksumError rest) =
      .cksumErr (BitVec.ofNat 16 s.length) (checksum s) c := by
  have hlen : (p.startDelim :: hi :: lo :: (s ++ c :: rest)).length - rest.length - 4 = s.length := by
    simp only [List.length_cons, List.length_append]
    omega
  simp only [callEvent, hlen]
  simp [Nat.add_comm 3]

section Bytes

variable {p : Params} {r : RxState} {d : Byte}

/-- In HUNT: the delimiter is pending from here on, and any other byte is a call of its own. -/
theorem rxByte_pending_nil (h : r.Pending p []) : ∃ res, rxByte p r d = .ok res ∧ ByteTaken p [] d res := by
  obtain ⟨hstate, hlen, hcnt, hsum⟩ := RxState.view_eq_iff.mp h.view
  by_cases hd : d = p.startDelim
  · have hview : ({ r with state := .lenHi } : RxState).view = ⟨.lenHi, 0, 0, 0⟩ :=
      RxState.view_eq_iff.mpr ⟨rfl, hlen, hcnt, hsum⟩
    exact ⟨_, rxByte_delimiter hstate hd, .joins rfl (.of_cnt_zero (hd ▸ unframe_one p) hview hcnt rfl)⟩
  · refine ⟨_, rxByte_badDelim hstate hd, .ends RxEvent.noConfusion (.of_closed h.view) fun tail => ?_⟩
    rw [List.nil_append, unframe_of_ne p tail hd]
    exact ⟨rfl, rfl⟩

/-- The high length byte. -/
theorem rxByte_pending_delimiter (h : r.Pending p [p.startDelim]) :
    ∃ res, rxByte p r d = .ok res ∧ ByteTaken p [p.startDelim] d res := by
  obtain ⟨hstate, -, hcnt, hsum⟩ := RxState.view_eq_iff.mp h.view
  have hview : ({ r with len := lenOfBytes d 0, state := .lenLo } : RxState).view =
      ⟨.lenLo, lenOfBytes d 0, 0, 0⟩ :=
    RxState.view_eq_iff.mpr ⟨rfl, rfl, hcnt, hsum⟩
  exact ⟨_, rxByte_lenHi hstate, .joins rfl (.of_cnt_zero (unframe_two p d) hview hcnt rfl)⟩

/-- The low length byte: the envelope ends here if it is over-long. -/
theorem rxByte_pending_high {hi : Byte} (h : r.Pending p [p.startDelim, hi]) :
    ∃ res, rxByte p r d = .ok res ∧ ByteTaken p [p.startDelim, hi] d res := by
  obtain ⟨hstate, hlen, hcnt, hsum⟩ := RxState.view_eq_iff.mp h.view
  have hhigh : lenHigh r.len = hi := by rw [hlen, lenHigh_lenOfBytes]
  have hnat := lenOfBytes_toNat hi d
  have hofNat : BitVec.ofNat 16 (lenOfBytes hi d).toNat = lenOfBytes hi d := by rw [hnat, lenOfBytes_eq_ofNat]
  rcases Nat.lt_or_ge p.maxPayload.val (lenOfBytes hi d).toNat with hover | hmax
  · refine ⟨_, rxByte_overlen hstate (hhigh ▸ hover), .ends RxEvent.noConfusion (.of_closed rfl) fun tail => ?_⟩
    rw [List.cons_append, List.singleton_append, unframe_of_overlen hnat hover, hhigh]
    exact ⟨rfl, congrArg RxEvent.overlen hofNat⟩
  · have hincomplete : unframe p [p.startDelim, hi, d] = .incomplete := unframe_of_short hnat hmax (Nat.zero_le _)
    by_cases hzero : lenOfBytes hi d = 0#16
    · have hview : ({ r with len := 0, state := .cksum } : RxState).view = pendingView [p.startDelim, hi, d] :=
        RxState.view_eq_iff.mpr ⟨by simp [hzero], hzero.symm, hcnt, hsum⟩
      exact ⟨_, rxByte_emptyPayload hstate (hhigh ▸ hzero), .joins rfl (.of_cnt_zero hincomplete hview hcnt rfl)⟩
    · have hpos : 0 ≠ (lenOfBytes hi d).toNat := fun h => hzero (BitVec.eq_of_toNat_eq h.symm)
      have hview : ({ r with len := lenOfBytes (lenHigh r.len) d, state := .payload } : RxState).view =
          pendingView [p.startDelim, hi, d] :=
        RxState.view_eq_iff.mpr ⟨(if_neg hpos).symm, by rw [hhigh], hcnt, hsum⟩
      exact ⟨_, rxByte_length hstate (hhigh ▸ hmax) (hhigh ▸ hzero),
        .joins rfl (.of_cnt_zero hincomplete hview hcnt rfl)⟩

/-- A payload byte that is owed. -/
theorem rxByte_pending_payload {hi lo : Byte} {body : List Byte} (h : r.Pending p (p.startDelim :: hi :: lo :: body))
    (hmax : (lenOfBytes hi lo).toNat ≤ p.maxPayload.val) (howed : body.length < (lenOfBytes hi lo).toNat) :
    ∃ res, rxByte p r d = .ok res ∧ ByteTaken p (p.startDelim :: hi :: lo :: body) d res := by
  obtain ⟨hstate, hlen, hcnt, hsum⟩ := RxState.view_eq_iff.mp h.view
  rw [if_neg howed.ne] at hstate
  have hcntNat : r.cnt.toNat = body.length := by
    rw [hcnt]
    exact Nat.mod_eq_of_lt (by omega)
  have hnext : r.cnt + 1 = BitVec.ofNat 16 (body ++ [d]).length := by
    simp [hcnt, BitVec.ofNat_add]
  have hnextNat : (BitVec.ofNat 16 (body ++ [d]).length).toNat = body.length + 1 := by
    rw [List.length_append]
    exact Nat.mod_eq_of_lt (by simp; omega)
  have hsumNext : addSum r.sum d = acc (body ++ [d]) := by rw [acc_snoc, hsum]
  refine ⟨_, rxByte_collect hstate (by omega),
    .joins rfl ⟨?_, RxState.view_eq_iff.mpr ⟨?_, hlen, hnext, hsumNext⟩, ?_⟩⟩
  · exact unframe_of_short (lenOfBytes_toNat hi lo) hmax (by simpa using howed)
  · simp [hcntNat, hlen]
  · exact RxState.collected_write h.collected (by rw [quietRx_rx, hnext, hnextNat, hcntNat]) rfl

/-- The checksum byte: the verdict. -/
theorem rxByte_pending_checksum {hi lo : Byte} {body : List Byte}
    (h : r.Pending p (p.startDelim :: hi :: lo :: body)) (hmax : (lenOfBytes hi lo).toNat ≤ p.maxPayload.val)
    (hfull : body.length = (lenOfBytes hi lo).toNat) :
    ∃ res, rxByte p r d = .ok res ∧ ByteTaken p (p.startDelim :: hi :: lo :: body) d res := by
  obtain ⟨hstate, hlen, hcnt, hsum⟩ := RxState.view_eq_iff.mp h.view
  rw [if_pos hfull] at hstate
  have hlength : BitVec.ofNat 16 body.length = r.len := by rw [hfull, lenOfBytes_toNat, hlen, lenOfBytes_eq_ofNat]
  have hexp : cksumOf r.sum = checksum body := by rw [hsum, cksumOf_acc]
  have hcall (tail : List Byte) := unframe_of_complete (lenOfBytes_toNat hi lo) d tail hmax hfull
  by_cases hd : d = checksum body
  · refine ⟨_, rxByte_match hstate (hcnt.trans hlength) h.collected (hd.trans hexp.symm),
      .ends RxEvent.noConfusion (.of_closed rfl) fun tail => ?_⟩
    rw [List.cons_append, List.cons_append, List.cons_append, hcall, if_pos hd]
    exact ⟨rfl, by simp [callEvent, hlength, hexp, hd]⟩
  · refine ⟨_, rxByte_mismatch hstate (hexp ▸ hd), .ends RxEvent.noConfusion (.of_closed rfl) fun tail => ?_⟩
    rw [List.cons_append, List.cons_append, List.cons_append, hcall, if_neg hd, callEvent_checksumError, hlength, hexp]
    exact ⟨rfl, rfl⟩

/-- Every byte, whatever is pending: one case for each shape of input that `unframe` calls incomplete. -/
theorem rxByte_pending {w : List Byte} (h : r.Pending p w) :
    ∃ res, rxByte p r d = .ok res ∧ ByteTaken p w d res := by
  cases UnframeReads.of_eq h.incomplete with
  | empty => exact rxByte_pending_nil h
  | delimiterAlone => exact rxByte_pending_delimiter h
  | highByteLast hi => exact rxByte_pending_high h
  | short hi lo body hmax hshort =>
    rw [← lenOfBytes_toNat] at hmax hshort
    rcases hshort.lt_or_eq with howed | hfull
    · exact rxByte_pending_payload h hmax howed
    · exact rxByte_pending_checksum h hmax hfull

end Bytes

end Sys2Proof.Machine
end

section
/-! PROOFS. Feeding the unframer (42_rx_unframer.md R156) and closing the loop with the framer (R157). -/

namespace Sys2Proof.Machine

/-! ### The events of the wire bytes -/

/-- The events of a run's `RX_BYTE`s, one for each, as its trace shows them. -/
def wireEvents (ops : List Instr) (s : State) : List RxEvent :=
  ((traceOf ops s).filter fun e => e.op.wireByte.isSome).map (·.rxEvent)

@[simp] theorem traceEntry_op (i : Instr) (t : State) : (traceEntry i t).op = i := by
  cases i <;> rfl

theorem wireEvents_byte {d : Byte} {ops : List Instr} {s t : State} (h : exec (.rxByte d) s = .next t) :
    wireEvents (.rxByte d :: ops) s = t.rxEvent :: wireEvents ops t := by
  rw [wireEvents, traceOf_cons_of_next h]
  rfl

theorem wireEvents_other {i : Instr} {ops : List Instr} {s t : State} (hbyte : i.wireByte = none)
    (h : exec i s = .next t) : wireEvents (i :: ops) s = wireEvents ops t := by
  rw [wireEvents, traceOf_cons_of_next h, List.filter_cons_of_neg (by simp [hbyte]), wireEvents]

/-- Where every op is an `RX_BYTE`, these are all the events of the trace. -/
theorem wireEvents_map_rxByte (bs : List Byte) (s : State) :
    wireEvents (bs.map .rxByte) s = (traceOf (bs.map .rxByte) s).map (·.rxEvent) := by
  induction bs generalizing s with
  | nil => rfl
  | cons d bs ih =>
    cases hexec : exec (.rxByte d) s with
    | next t => rw [List.map_cons, wireEvents_byte hexec, traceOf_cons_of_next hexec, ih]; rfl
    | fault f => simp [wireEvents, traceOf, hexec]
    | refused x => exact absurd hexec (exec_not_refused _ s x)

@[simp] theorem wireBytes_map_rxByte (bs : List Byte) : wireBytes (bs.map .rxByte) = bs := by
  induction bs with
  | nil => rfl
  | cons d bs ih => exact congrArg (d :: ·) ih

theorem eventPerByte_of_incomplete {p : Params} {w : List Byte} (h : (unframe p w).rest = none) :
    eventPerByte p w = List.replicate w.length .none := by
  simp [eventPerByte, unframeCalls_of_incomplete h]

/-- The events of a call's bytes, then those of the bytes it leaves. -/
theorem eventPerByte_of_rest {p : Params} {w rest : List Byte} (h : (unframe p w).rest = some rest) :
    eventPerByte p w =
      List.replicate (w.length - rest.length - 1) .none ++ callEvent p (w, unframe p w) :: eventPerByte p rest := by
  have hconsumed : callConsumed (w, unframe p w) = w.length - rest.length := by simp [callConsumed, h]
  simp [eventPerByte, unframeCalls_of_rest h, hconsumed]

/-! ### A run of feeding ops -/

/-- An op that R156 lets stand in a feed is a byte or leaves the envelope alone. -/
theorem feedsRx_cases {i : Instr} (h : i.feedsRx = true) :
    (∃ d, i = .rxByte d) ∨ (i ≠ .rxAbort ∧ i ≠ .reset ∧ i.wireByte = none) := by
  cases i
  case rxByte d => exact .inl ⟨d, rfl⟩
  case rxNop | rxClrf => exact .inr ⟨Instr.noConfusion, Instr.noConfusion, rfl⟩
  case rxAbort | txNop | txStart | txByte | txClrf | reset => cases h

/-- `t` is `s`, with the bytes `w` pending, after the ops: the outcomes of `unframe_all` on `w` and the ops' bytes are
delivered, each at its last byte, and its tail is pending. -/
structure State.Fed (s : State) (w : List Byte) (ops : List Instr) (t : State) : Prop where
  delivered : t.delivered =
    s.delivered ++ (unframeCalls s.params (w ++ wireBytes ops)).1.map (callEvent s.params)
  pending : t.rx.Pending s.params (unframeCalls s.params (w ++ wireBytes ops)).2
  events : List.replicate w.length .none ++ wireEvents ops s = eventPerByte s.params (w ++ wireBytes ops)

section Fed

variable {s t u : State} {w : List Byte} {ops : List Instr}

/-- Nothing fed: what is pending stays so, since it completes no envelope. -/
theorem State.Fed.nil (h : s.rx.Pending s.params w) : s.Fed w [] s := by
  have hrest : (unframe s.params w).rest = none := by rw [h.incomplete]; rfl
  have hcalls := unframeCalls_of_incomplete hrest
  have hbytes : w ++ wireBytes [] = w := List.append_nil w
  refine ⟨?_, ?_, ?_⟩ <;> rw [hbytes]
  · rw [hcalls, List.map_nil, List.append_nil]
  · rwa [hcalls]
  · rw [eventPerByte_of_incomplete hrest]
    exact List.append_nil _

/-- An op that keeps the envelope, before a feed. -/
theorem State.Fed.other {i : Instr} (hbyte : i.wireByte = none) (hexec : exec i s = .next t)
    (hkeeps : s.KeepsEnvelope t) (h : t.Fed w ops u) : s.Fed w (i :: ops) u := by
  have hbytes : wireBytes (i :: ops) = wireBytes ops := List.filterMap_cons_none hbyte
  obtain ⟨hdelivered, hpending, hevents⟩ := h
  rw [hkeeps.params] at hdelivered hpending hevents
  refine ⟨?_, ?_, ?_⟩ <;> rw [hbytes]
  · rw [hdelivered, hkeeps.delivered]
  · exact hpending
  · rw [wireEvents_other hbyte hexec, hevents]

/-- A byte that joins the pending ones, before a feed. -/
theorem State.Fed.joins {d : Byte} {res : RxResult} (hexec : exec (.rxByte d) s = .next (s.withRx res))
    (hquiet : res.ev = .none) (h : (s.withRx res).Fed (w ++ [d]) ops u) : s.Fed w (.rxByte d :: ops) u := by
  have hbytes : w ++ wireBytes (.rxByte d :: ops) = w ++ [d] ++ wireBytes ops := by
    rw [List.append_assoc]
    rfl
  obtain ⟨hdelivered, hpending, hevents⟩ := h
  rw [State.withRx_params] at hdelivered hpending hevents
  refine ⟨?_, ?_, ?_⟩ <;> rw [hbytes]
  · rw [hdelivered, State.withRx_delivered, hquiet, RxEvent.onChannel_none, List.append_nil]
  · exact hpending
  · rw [wireEvents_byte hexec, State.withRx_rxEvent, hquiet, ← hevents, List.length_append, List.length_singleton,
      List.replicate_succ', List.append_assoc]
    rfl

/-- A byte that a call of `unframe` consumes last, before a feed. -/
theorem State.Fed.ends {d : Byte} {res : RxResult} (hexec : exec (.rxByte d) s = .next (s.withRx res))
    (hraised : res.ev ≠ .none)
    (hrest : (unframe s.params (w ++ d :: wireBytes ops)).rest = some (wireBytes ops))
    (hevent : callEvent s.params (w ++ d :: wireBytes ops, unframe s.params (w ++ d :: wireBytes ops)) = res.ev)
    (h : (s.withRx res).Fed [] ops u) : s.Fed w (.rxByte d :: ops) u := by
  have hbytes : wireBytes (.rxByte d :: ops) = d :: wireBytes ops := rfl
  have hconsumed : (w ++ d :: wireBytes ops).length - (wireBytes ops).length - 1 = w.length := by
    simp only [List.length_append, List.length_cons]
    omega
  obtain ⟨hdelivered, hpending, hevents⟩ := h
  rw [State.withRx_params, List.nil_append] at hdelivered hpending hevents
  refine ⟨?_, ?_, ?_⟩ <;> rw [hbytes]
  · rw [unframeCalls_of_rest hrest, List.map_cons, hevent, hdelivered, State.withRx_delivered,
      RxEvent.onChannel_of_ne hraised, List.append_assoc]
    rfl
  · rwa [unframeCalls_of_rest hrest]
  · rw [wireEvents_byte hexec, eventPerByte_of_rest hrest, hconsumed, hevent, ← hevents]
    rfl

end Fed

/-- From any state with pending bytes, a feed runs and gives what `unframe_all` gives. -/
theorem execAll_feed {ops : List Instr} {s : State} {w : List Byte} (hops : ∀ i ∈ ops, i.feedsRx = true)
    (h : s.rx.Pending s.params w) : ∃ t, execAll ops s = .next t ∧ s.Fed w ops t := by
  induction ops generalizing s w with
  | nil => exact ⟨s, rfl, .nil h⟩
  | cons i ops ih =>
    obtain ⟨hi, hrest⟩ := List.forall_mem_cons.mp hops
    rcases feedsRx_cases hi with ⟨d, rfl⟩ | ⟨habort, hreset, hbyte⟩
    · obtain ⟨res, hres, htaken⟩ := rxByte_pending (d := d) h
      have hexec := exec_rxByte hres
      cases htaken with
      | joins hquiet hpending =>
        obtain ⟨u, hrun, hfed⟩ := ih (s := s.withRx res) hrest hpending
        exact ⟨u, (execAll_cons_of_next hexec).trans hrun, hfed.joins hexec hquiet⟩
      | ends hraised hclosed hcall =>
        obtain ⟨u, hrun, hfed⟩ := ih (s := s.withRx res) hrest hclosed
        obtain ⟨hcallRest, hcallEvent⟩ := hcall (wireBytes ops)
        exact ⟨u, (execAll_cons_of_next hexec).trans hrun, hfed.ends hexec hraised hcallRest hcallEvent⟩
    · obtain ⟨t, hexec, hkeeps⟩ := exec_keepsEnvelope s habort hreset hbyte
      obtain ⟨u, hrun, hfed⟩ := ih hrest (hkeeps.params ▸ RxState.Pending.of_alike hkeeps.alike h)
      exact ⟨u, (execAll_cons_of_next hexec).trans hrun, hfed.other hbyte hexec hkeeps⟩

/-- The same for bytes alone, from HUNT with the invariants. -/
theorem execAll_feed_bytes {s : State} (hinv : s.Inv) (hstate : s.rx.state = .hunt) (bs : List Byte) :
    ∃ t, execAll (bs.map .rxByte) s = .next t ∧ s.Fed [] (bs.map .rxByte) t := by
  refine execAll_feed (fun i hi => ?_) (hinv.1.pending_nil hstate)
  obtain ⟨d, -, rfl⟩ := List.mem_map.mp hi
  rfl

section Bytes

variable {s t : State} {bs : List Byte} (h : s.Fed [] (bs.map .rxByte) t)
include h

/-- Bytes that are not an envelope yet raise nothing, and are pending. -/
theorem State.Fed.of_incomplete (hincomplete : unframe s.params bs = .incomplete) :
    t.delivered = s.delivered ∧ t.rx.Pending s.params bs := by
  obtain ⟨hdelivered, hpending, -⟩ := h
  have hcalls : unframeCalls s.params bs = ([], bs) := unframeCalls_of_incomplete (by rw [hincomplete]; rfl)
  rw [wireBytes_map_rxByte, List.nil_append, hcalls] at hdelivered hpending
  exact ⟨hdelivered.trans (List.append_nil _), hpending⟩

/-- Bytes that are one whole envelope raise its event at the last byte, and nothing is pending. -/
theorem State.Fed.of_complete {call : UnframeOutcome} (hcall : unframe s.params bs = call)
    (hrest : call.rest = some []) :
    t.delivered = s.delivered ++ [callEvent s.params (bs, call)] ∧ t.rx.Pending s.params [] ∧
      (traceOf (bs.map .rxByte) s).map (·.rxEvent) =
        List.replicate (bs.length - 1) .none ++ [callEvent s.params (bs, call)] := by
  subst hcall
  obtain ⟨hdelivered, hpending, hevents⟩ := h
  have hcalls := unframeCalls_of_rest hrest
  rw [wireBytes_map_rxByte, List.nil_append] at hdelivered hpending hevents
  rw [hcalls] at hdelivered hpending
  refine ⟨hdelivered, hpending, ?_⟩
  rw [← wireEvents_map_rxByte, ← List.nil_append (wireEvents _ _)]
  exact hevents.trans (eventPerByte_of_rest hrest)

end Bytes

/-- A frame fed from HUNT (R156): nothing but `FRAME_OK` of its payload, at its last byte. -/
theorem execAll_feed_envelope {s : State} {payload : List Byte} (hinv : s.Inv) (hstate : s.rx.state = .hunt)
    (hmax : payload.length ≤ s.params.maxPayload.val) :
    ∃ t, execAll ((envelope s.params payload).map .rxByte) s = .next t ∧
      t.delivered = s.delivered ++
        [.frameOk (BitVec.ofNat 16 payload.length) (checksum payload) (checksum payload) payload] ∧
      t.rx.Pending s.params [] ∧
      (traceOf ((envelope s.params payload).map .rxByte) s).map (·.rxEvent) =
        List.replicate (payload.length + 3) .none ++
          [.frameOk (BitVec.ofNat 16 payload.length) (checksum payload) (checksum payload) payload] := by
  obtain ⟨t, hrun, hfed⟩ := execAll_feed_bytes hinv hstate (envelope s.params payload)
  have hcall : unframe s.params (envelope s.params payload) = .ok payload [] := by
    simpa using unframe_envelope_append [] hmax
  obtain ⟨hdelivered, hpending, hevents⟩ := hfed.of_complete hcall rfl
  rw [envelope_length] at hevents
  exact ⟨t, hrun, hdelivered, hpending, hevents⟩

/-- The same without the last byte: nothing is raised. -/
theorem execAll_feed_dropLast {s : State} {payload : List Byte} (hinv : s.Inv) (hstate : s.rx.state = .hunt)
    (hmax : payload.length ≤ s.params.maxPayload.val) :
    ∃ t, execAll ((envelope s.params payload).dropLast.map .rxByte) s = .next t ∧ t.delivered = s.delivered := by
  obtain ⟨t, hrun, hfed⟩ := execAll_feed_bytes hinv hstate (envelope s.params payload).dropLast
  have hincomplete : unframe s.params (envelope s.params payload).dropLast = .incomplete := by
    rw [List.dropLast_eq_take, envelope_length]
    exact unframe_envelope_take hmax (by omega)
  exact ⟨t, hrun, (hfed.of_incomplete hincomplete).1⟩

/-- The envelope depends on the delimiter alone of the parameters. -/
theorem envelope_of_startDelim_eq {p q : Params} (h : p.startDelim = q.startDelim) (payload : List Byte) :
    envelope p payload = envelope q payload := by
  rw [envelope, envelope, h]

end Sys2Proof.Machine

namespace Sys2Proof

open Machine

/-- Settles O38: from HUNT nothing is pending, so a feed gives what `unframe_all` gives of its bytes; the tail alone
leads to a state that stands for the same pending bytes; a frame is one call. -/
theorem unframerAgreesWithUnframeAll : Obligations.UnframerAgreesWithUnframeAll := by
  refine fun s hinv hstate => ⟨fun ops hops => ?_, fun payload hmax => ?_⟩
  · obtain ⟨t, hrun, hdelivered, hpending, hevents⟩ := execAll_feed hops (hinv.1.pending_nil hstate)
    rw [List.nil_append] at hdelivered hpending hevents
    refine ⟨t, hrun, hdelivered, hpending.state_eq_hunt, fun htail => ⟨?_, ?_⟩, hevents⟩
    · exact rxStat_incomplete_of_open (mt hpending.state_eq_hunt.mp htail)
    · obtain ⟨u, hrunTail, hfed⟩ := execAll_feed_bytes hinv hstate (unframeAll s.params (wireBytes ops)).2
      exact ⟨u, hrunTail, hpending.alike (hfed.of_incomplete hpending.incomplete).2⟩
  · obtain ⟨t, hrun, -, hpending, hevents⟩ := execAll_feed_envelope hinv hstate hmax
    exact ⟨t, hrun, hpending.view, hevents⟩

/-- Settles O39: the framer emits the envelope of the payload, which is the unframer's too, since the delimiter is the
same. -/
theorem loopBackDeliversThePayload : Obligations.LoopBackDeliversThePayload := by
  intro s r payload hs hr hdelim hidle hhunt hmax
  obtain ⟨t, hrun, hwire, -⟩ := execAll_frameOps hs hidle (length_le_of_le_maxPayload hmax)
  obtain ⟨u, hfeed, hdelivered, -⟩ := execAll_feed_envelope hr hhunt hmax
  rw [envelope_of_startDelim_eq hdelim] at hwire
  exact ⟨t, _, hrun, hwire, ⟨u, hfeed, hdelivered⟩, execAll_feed_dropLast hr hhunt hmax⟩

end Sys2Proof
end

section
/-! PROOFS. SEQ_ERR: raised by the mis-sequenced TX ops alone, which are refused whole (60_exceptions.md R176). -/

namespace Sys2Proof.Machine

/-- The two mis-sequenced ops of R176: `TX_START` with a frame open, `TX_BYTE` with none open. -/
abbrev TxState.MisSequenced (t : TxState) (i : Instr) : Prop :=
  ((∃ l, i = .txStart l) ∧ t.state = .body) ∨ ((∃ d, i = .txByte d) ∧ t.state = .idle)

/-- Every TX op is a step of the TX path. -/
theorem txStep_of_port {i : Instr} (p : Params) (t : TxState) (h : i.port = .tx) : ∃ res, txStep p t i = some res := by
  cases i
  case rxNop | rxByte | rxAbort | rxClrf | reset => cases h
  case txNop | txStart | txByte | txClrf => exact ⟨_, rfl⟩

section SeqErr

variable {p : Params} {t : TxState} {i : Instr} {res : TxResult}

theorem txStep_of_misSequenced (hres : txStep p t i = some res) (h : t.MisSequenced i) : res = raiseTx t .seqErr := by
  rcases h with ⟨⟨l, rfl⟩, hbody⟩ | ⟨⟨d, rfl⟩, hidle⟩
  · cases hres
    exact txStart_refused hbody
  · cases hres
    exact txByte_refused hidle

theorem misSequenced_of_seqErr (hres : txStep p t i = some res) (hev : res.ev = .seqErr) : t.MisSequenced i := by
  cases i
  case rxNop | rxByte | rxAbort | rxClrf | reset => cases hres
  case txNop | txClrf => cases hres; cases hev
  case txStart l =>
    cases hres
    rcases txStart_cases p t l with ⟨-, -, hrow⟩ | ⟨-, -, hrow⟩ | ⟨hbody, -⟩
    · rw [hrow] at hev; cases hev
    · rw [hrow] at hev; cases hev
    · exact .inl ⟨⟨l, rfl⟩, hbody⟩
  case txByte d =>
    cases hres
    rcases txByte_cases t d with ⟨-, -, hrow⟩ | ⟨-, -, hrow⟩ | ⟨hidle, -⟩
    · rw [hrow] at hev; cases hev
    · rw [hrow] at hev; cases hev
    · exact .inr ⟨⟨d, rfl⟩, hidle⟩

end SeqErr

end Sys2Proof.Machine

namespace Sys2Proof

open Machine

/-- Settles O18: the event is `SEQ_ERR` only for a mis-sequenced op, and the result of such an op is the raise alone. -/
theorem refusedTxOpLeavesNoTrace : Obligations.RefusedTxOpLeavesNoTrace := by
  intro i s hport
  obtain ⟨res, hres⟩ := txStep_of_port s.params s.tx hport
  have hraise (h : s.tx.MisSequenced i) : res = raiseTx s.tx .seqErr := txStep_of_misSequenced hres h
  have hmis (hev : res.ev = .seqErr) : s.tx.MisSequenced i := misSequenced_of_seqErr hres hev
  refine ⟨s.withTx res, exec_of_txStep hres, ⟨hmis, fun h => ?_⟩, fun hev => ?_⟩
  · rw [hraise h, State.withTx_txEvent, raiseTx_ev]
  · rw [hraise (hmis hev), State.withTx_raiseTx_seqErr]

end Sys2Proof
end

section
/-! PROOFS. OVERLEN: raised by the completing length byte alone, for a length above the bound (60_exceptions.md
R175). -/

namespace Sys2Proof.Machine

/-- Of the rows of R155, only the one of an over-long length raises `OVERLEN`. -/
theorem rxByte_ev_overlen_iff {p : Params} {r : RxState} {d : Byte} {l : Len} {res : RxResult}
    (h : rxByte p r d = .ok res) :
    res.ev = .overlen l ↔
      r.state = .lenLo ∧ p.maxPayload.val < (lenOfBytes (lenHigh r.len) d).toNat ∧ l = lenOfBytes (lenHigh r.len) d := by
  constructor
  · intro hev
    rcases rxByte_cases h with ⟨-, -, rfl⟩ | ⟨-, -, rfl⟩ | ⟨-, rfl⟩ | ⟨hstate, hover, rfl⟩ | ⟨-, -, rfl⟩ |
      ⟨-, -, -, rfl⟩ | ⟨-, -, rfl⟩ | ⟨-, -, payload, -, rfl⟩ | ⟨-, -, rfl⟩
    case inr.inr.inr.inl =>
      cases hev
      exact ⟨hstate, hover, rfl⟩
    all_goals cases hev
  · rintro ⟨hstate, hover, rfl⟩
    rw [rxByte_overlen hstate hover] at h
    cases h
    rfl

/-- `OVERLEN` over all RX ops: the others than `RX_BYTE` raise nothing. -/
theorem rxStep_ev_overlen_iff {p : Params} {r : RxState} {i : Instr} {l : Len} {res : RxResult}
    (h : rxStep p r i = some (.ok res)) :
    res.ev = .overlen l ↔ ∃ d, i = .rxByte d ∧ r.state = .lenLo ∧
      p.maxPayload.val < (lenOfBytes (lenHigh r.len) d).toNat ∧ l = lenOfBytes (lenHigh r.len) d := by
  cases i
  case rxByte d => simpa using rxByte_ev_overlen_iff (Option.some.inj h)
  case rxNop | rxAbort | rxClrf => cases h; simp [rxAbort]
  case txNop | txStart | txByte | txClrf | reset => cases h

end Sys2Proof.Machine

namespace Sys2Proof

open Machine

/-- Settles O35: the completed length as a number; a 16-bit length is at most 65535. -/
theorem overlenMeansALengthBeyondTheBuffer : Obligations.OverlenMeansALengthBeyondTheBuffer := by
  intro i s t hexec hport
  rcases exec_next_cases hexec with ⟨-, res, hres, rfl⟩ | ⟨htx, -⟩ | ⟨rfl, -⟩
  · have hiff (l : Len) := rxStep_ev_overlen_iff (l := l) hres
    simp only [← BitVec.toNat_inj, lenOfBytes_lenHigh_toNat] at hiff
    refine ⟨hiff, fun hmax l hev => ?_⟩
    obtain ⟨d, -, -, hover, hl⟩ := (hiff l).mp hev
    have hlt : l.toNat < 65536 := l.isLt
    omega
  · rw [hport] at htx
    cases htx
  · cases hport

end Sys2Proof
end

section
/-! PROOFS. The reset step against every other op: it restores both paths, and the others keep a path each and every
flag they do not clear by a mask (70_reset_and_hazards.md R200; 10_state.md R25, R32). -/

namespace Sys2Proof.Machine

@[simp] theorem setFlags_zero {n : Nat} (flags : BitVec n) : setFlags flags 0#n = flags := BitVec.or_zero

/-- A flag already set stays set (R183). -/
theorem getLsbD_setFlags_of_set {n k : Nat} {flags : BitVec n} (mask : BitVec n) (h : flags.getLsbD k = true) :
    (setFlags flags mask).getLsbD k = true := by
  rw [setFlags, BitVec.getLsbD_or, h, Bool.true_or]

/-- `RX_BYTE` sets the flag of its event and clears none, in every row of R155. -/
theorem rxByte_flags {p : Params} {r : RxState} {d : Byte} {res : RxResult} (h : rxByte p r d = .ok res) :
    res.rx.flags = setFlags r.flags res.ev.flag := by
  rcases rxByte_cases h with ⟨-, -, rfl⟩ | ⟨-, -, rfl⟩ | ⟨-, rfl⟩ | ⟨-, -, rfl⟩ | ⟨-, -, rfl⟩ |
    ⟨-, -, -, rfl⟩ | ⟨-, -, rfl⟩ | ⟨-, -, payload, -, rfl⟩ | ⟨-, -, rfl⟩ <;> simp [RxEvent.flag]

/-- An RX op other than `RX_CLRF` only sets flags. -/
theorem rxStep_flags {p : Params} {r : RxState} {i : Instr} {res : RxResult}
    (h : rxStep p r i = some (.ok res)) (hclrf : ∀ m, i ≠ .rxClrf m) :
    ∃ mask, res.rx.flags = setFlags r.flags mask := by
  cases i
  case rxNop => cases h; exact ⟨0#4, (setFlags_zero _).symm⟩
  case rxByte d => exact ⟨res.ev.flag, rxByte_flags (Option.some.inj h)⟩
  case rxAbort =>
    cases h
    by_cases hstate : r.state = .hunt
    · exact ⟨0#4, by simp [rxAbort_hunt hstate]⟩
    · exact ⟨abortedFlag, by rw [rxAbort_open hstate]; rfl⟩
  case rxClrf m => exact absurd rfl (hclrf m)
  case txNop | txStart | txByte | txClrf | reset => cases h

/-- A TX op other than `TX_CLRF` sets the flag of its event and clears none. -/
theorem txStep_flags {p : Params} {t : TxState} {i : Instr} {res : TxResult} (h : txStep p t i = some res)
    (hclrf : ∀ m, i ≠ .txClrf m) : res.tx.flags = setFlags t.flags res.ev.flag := by
  cases i
  case rxNop | rxByte | rxAbort | rxClrf | reset => cases h
  case txNop => cases h; simp [TxEvent.flag]
  case txStart l =>
    cases h
    rcases txStart_cases p t l with ⟨-, -, hrow⟩ | ⟨-, -, hrow⟩ | ⟨-, hrow⟩ <;> simp [hrow, TxEvent.flag]
  case txByte d =>
    cases h
    rcases txByte_cases t d with ⟨-, -, hrow⟩ | ⟨-, -, hrow⟩ | ⟨-, hrow⟩ <;> simp [hrow, TxEvent.flag]
  case txClrf m => exact absurd rfl (hclrf m)

end Sys2Proof.Machine

namespace Sys2Proof

open Machine

/-- Settles O13: the reset step lists its values, the pin outranks the op words (R84), and any other op steps one path
alone, where the flags are set by a mask. -/
theorem resetOpRestoresTheResetValues : Obligations.ResetOpRestoresTheResetValues := by
  refine fun s => ⟨?_, fun rx tx rest => ?_, fun i t hne hexec => ?_⟩
  · exact ⟨_, rfl, rfl, rfl, rfl, rfl, rfl, rfl, rfl, rfl, rfl, rfl, rfl, rfl, rfl, rfl, rfl, rfl, rfl, rfl⟩
  · obtain ⟨-, hpin⟩ := resetPinOutranksBothOpWords
    exact (hpin s rx tx rest).1
  · rcases exec_next_cases hexec with ⟨-, res, hres, rfl⟩ | ⟨-, res, hres, rfl⟩ | ⟨rfl, -⟩
    · refine ⟨.inr rfl, fun hclrf k hk => ?_, fun _ _ hk => hk⟩
      obtain ⟨mask, hflags⟩ := rxStep_flags hres hclrf
      rw [State.withRx_rx, hflags]
      exact getLsbD_setFlags_of_set mask hk
    · refine ⟨.inl rfl, fun _ _ hk => hk, fun hclrf k hk => ?_⟩
      rw [State.withTx_tx, txStep_flags hres hclrf]
      exact getLsbD_setFlags_of_set _ hk
    · exact absurd rfl hne

end Sys2Proof
end

section
/-! PROOFS. The RX invariants (10_state.md R27) say that the unframer stands for the bytes of an envelope that is not
complete: what a byte does under them is what it does behind pending bytes. -/

namespace Sys2Proof.Machine

/-- The flags are no part of R27. -/
theorem RxInv.withFlags {p : Params} {r : RxState} (h : RxInv p r) (flags : BitVec 4) :
    RxInv p { r with flags := flags } := h

/-- A length whose low byte has not come is its high byte alone. -/
theorem lenOfBytes_of_lenLow_zero {l : Len} (h : lenLow l = 0) : lenOfBytes (lenHigh l) 0 = l := by
  rw [← h, lenOfBytes_split]

/-- The bytes of an open envelope, header first, are pending when its payload is not complete or awaits its checksum
byte. -/
theorem RxState.Pending.of_header {p : Params} {r : RxState} {bs : List Byte} (hmax : r.len.toNat ≤ p.maxPayload.val)
    (hle : r.cnt.toNat ≤ r.len.toNat) (hstate : r.state = if r.cnt = r.len then .cksum else .payload)
    (hcollected : r.collected = some bs) (hacc : acc bs = r.sum) :
    r.Pending p (p.startDelim :: lenHigh r.len :: lenLow r.len :: bs) := by
  have hcnt : bs.length = r.cnt.toNat := RxState.collected_length hcollected
  have hlen : 256 * (lenHigh r.len).toNat + (lenLow r.len).toNat = r.len.toNat := by
    rw [← lenOfBytes_toNat, lenOfBytes_split]
  refine ⟨unframe_of_short hlen.symm hmax (by omega), RxState.view_eq_iff.mpr ⟨?_, ?_, ?_, hacc.symm⟩, hcollected⟩
  · rw [hstate, lenOfBytes_split, hcnt]
    simp only [BitVec.toNat_inj]
  · exact (lenOfBytes_split r.len).symm
  · rw [hcnt, BitVec.ofNat_toNat, BitVec.setWidth_eq]

/-- In PAYLOAD the header and the bytes collected are pending. -/
theorem RxInv.pending_payload {p : Params} {r : RxState} (h : RxInv p r) (hstate : r.state = .payload) :
    ∃ bs, r.collected = some bs ∧ r.Pending p (p.startDelim :: lenHigh r.len :: lenLow r.len :: bs) := by
  obtain ⟨bs, hcollected, hacc⟩ := h.collected
  obtain ⟨-, -, hpayload, -⟩ := h
  obtain ⟨-, hmax, hlt⟩ := hpayload hstate
  have hne : r.cnt ≠ r.len := BitVec.toNat_ne.mpr hlt.ne
  exact ⟨bs, hcollected, .of_header hmax hlt.le (by rw [hstate, if_neg hne]) hcollected hacc⟩

/-- Under the invariants the unframer stands for the bytes it has consumed of the envelope in progress. -/
theorem RxInv.pending {p : Params} {r : RxState} (h : RxInv p r) : ∃ w, r.Pending p w := by
  obtain ⟨bs, hcollected, hacc⟩ := h.collected
  have hrows := h
  obtain ⟨hclosed, hlow, -, hcksum, -⟩ := hrows
  cases hstate : r.state with
  | hunt =>
    obtain ⟨hlen, hcnt, hsum⟩ := hclosed (.inl hstate)
    exact ⟨[], .of_closed (RxState.view_eq_iff.mpr ⟨hstate, hlen, hcnt, hsum⟩)⟩
  | lenHi =>
    obtain ⟨hlen, hcnt, hsum⟩ := hclosed (.inr hstate)
    exact ⟨[p.startDelim], .of_cnt_zero (unframe_one p) (RxState.view_eq_iff.mpr ⟨hstate, hlen, hcnt, hsum⟩) hcnt rfl⟩
  | lenLo =>
    obtain ⟨hlen, hcnt, hsum⟩ := hlow hstate
    have hview : r.view = ⟨.lenLo, lenOfBytes (lenHigh r.len) 0, 0, 0⟩ :=
      RxState.view_eq_iff.mpr ⟨hstate, (lenOfBytes_of_lenLow_zero hlen).symm, hcnt, hsum⟩
    exact ⟨[p.startDelim, lenHigh r.len], .of_cnt_zero (unframe_two p _) hview hcnt rfl⟩
  | payload =>
    obtain ⟨bs, -, hpending⟩ := h.pending_payload hstate
    exact ⟨_, hpending⟩
  | cksum =>
    obtain ⟨hmax, hcnt⟩ := hcksum hstate
    exact ⟨_, .of_header hmax (hcnt ▸ le_rfl) (by rw [hstate, if_pos hcnt]) hcollected hacc⟩

/-- The rows of R27 from the bytes consumed; of the buffer it remains to know its form and its range. -/
theorem RxState.Pending.rxInv {p : Params} {r : RxState} {w : List Byte} (h : r.Pending p w) (hwf : Memory.wf r.buf)
    (hrange : ∀ c ∈ r.buf, c.1 < p.maxPayload.val) : RxInv p r := by
  obtain ⟨hincomplete, hview, hcollected⟩ := h
  suffices hrows : (r.state = .hunt ∨ r.state = .lenHi → r.len = 0 ∧ r.cnt = 0 ∧ r.sum = 0) ∧
      (r.state = .lenLo → lenLow r.len = 0 ∧ r.cnt = 0 ∧ r.sum = 0) ∧
      (r.state = .payload → 1 ≤ r.len.toNat ∧ r.len.toNat ≤ p.maxPayload.val ∧ r.cnt.toNat < r.len.toNat) ∧
      (r.state = .cksum → r.len.toNat ≤ p.maxPayload.val ∧ r.cnt = r.len) ∧ acc (w.drop 3) = r.sum by
    obtain ⟨hclosed, hlow, hpayload, hcksum, hacc⟩ := hrows
    exact ⟨hclosed, hlow, hpayload, hcksum, by rw [hcollected, Option.map_some, hacc], hwf, hrange⟩
  cases UnframeReads.of_eq hincomplete with
  | empty | delimiterAlone =>
    obtain ⟨hstate, hlen, hcnt, hsum⟩ := RxState.view_eq_iff.mp hview
    simp [hstate, hlen, hcnt, hsum]
  | highByteLast hi =>
    obtain ⟨hstate, hlen, hcnt, hsum⟩ := RxState.view_eq_iff.mp hview
    simp [hstate, hlen, hcnt, hsum, lenLow_lenOfBytes]
  | short hi lo body hmax hshort =>
    obtain ⟨hstate, hlen, hcnt, hsum⟩ := RxState.view_eq_iff.mp hview
    rw [← lenOfBytes_toNat, ← hlen] at hmax hshort
    rw [← hlen] at hstate
    have hlt := r.len.isLt
    have hcntNat : r.cnt.toNat = body.length := by
      rw [hcnt]
      exact Nat.mod_eq_of_lt (by omega)
    split at hstate
    · next hfull => simp [hstate, hmax, hsum, ← BitVec.toNat_inj, hcntNat, hfull]
    · next howed =>
      have hlt : r.cnt.toNat < r.len.toNat := by omega
      have hpos : 1 ≤ r.len.toNat := by omega
      simp [hstate, hmax, hsum, hlt, hpos]

/-! ### A byte under the invariants -/

/-- A byte leaves the buffer as it was or, in PAYLOAD, is stored at `rx.cnt` (R146). -/
theorem rxByte_buf {p : Params} {r : RxState} {d : Byte} {res : RxResult} (h : rxByte p r d = .ok res) :
    res.rx.buf = r.buf ∨ (r.state = .payload ∧ r.cnt.toNat < p.maxPayload.val ∧
      res.rx.buf = Memory.write r.buf r.cnt.toNat d) := by
  rcases rxByte_cases h with ⟨-, -, rfl⟩ | ⟨-, -, rfl⟩ | ⟨-, rfl⟩ | ⟨-, -, rfl⟩ | ⟨-, -, rfl⟩ |
    ⟨-, -, -, rfl⟩ | ⟨hstate, hroom, rfl⟩ | ⟨-, -, payload, -, rfl⟩ | ⟨-, -, rfl⟩
  case inr.inr.inr.inr.inr.inr.inl => exact .inr ⟨hstate, hroom, rfl⟩
  all_goals exact .inl rfl

/-- What is pending after a byte. -/
theorem ByteTaken.pending {p : Params} {w : List Byte} {d : Byte} {res : RxResult} (h : ByteTaken p w d res) :
    ∃ w', res.rx.Pending p w' := by
  cases h with
  | joins _ hpending => exact ⟨_, hpending⟩
  | ends _ hclosed _ => exact ⟨_, hclosed⟩

/-- Under the invariants every byte has a result: neither fault of the model occurs (R26, R51). -/
theorem RxInv.rxByte_ok {p : Params} {r : RxState} (h : RxInv p r) (d : Byte) : ∃ res, rxByte p r d = .ok res := by
  obtain ⟨w, hpending⟩ := h.pending
  obtain ⟨res, hres, -⟩ := rxByte_pending (d := d) hpending
  exact ⟨res, hres⟩

/-- What a byte that has a result does, by the bytes pending before it. -/
theorem RxState.Pending.byteTaken {p : Params} {r : RxState} {w : List Byte} {d : Byte} {res : RxResult}
    (h : r.Pending p w) (hres : rxByte p r d = .ok res) : ByteTaken p w d res := by
  obtain ⟨res', hres', htaken⟩ := rxByte_pending (d := d) h
  rw [hres] at hres'
  cases hres'
  exact htaken

theorem rxByte_keeps_rxInv {p : Params} {r : RxState} {d : Byte} {res : RxResult} (h : RxInv p r)
    (hres : rxByte p r d = .ok res) : RxInv p res.rx := by
  obtain ⟨w, hpending⟩ := h.pending
  obtain ⟨w', hpending'⟩ := (hpending.byteTaken hres).pending
  obtain ⟨-, -, -, -, -, hwf, hrange⟩ := h
  rcases rxByte_buf hres with hbuf | ⟨-, hroom, hbuf⟩
  · exact hpending'.rxInv (hbuf ▸ hwf) (hbuf ▸ hrange)
  · exact hpending'.rxInv (hbuf ▸ Memory.write_wf _ _ hwf) (hbuf ▸ Memory.write_bounded _ hroom hrange)

theorem rxStep_ok {p : Params} {r : RxState} {i : Instr} (h : RxInv p r) (hport : i.port = .rx) :
    ∃ res, rxStep p r i = some (.ok res) := by
  cases i
  case rxNop | rxAbort | rxClrf => exact ⟨_, rfl⟩
  case rxByte d =>
    obtain ⟨res, hres⟩ := h.rxByte_ok d
    exact ⟨res, congrArg some hres⟩
  case txNop | txStart | txByte | txClrf | reset => cases hport

theorem rxStep_keeps_rxInv {p : Params} {r : RxState} {i : Instr} {res : RxResult} (h : RxInv p r)
    (hres : rxStep p r i = some (.ok res)) : RxInv p res.rx := by
  cases i
  case rxNop => cases hres; exact h
  case rxByte d => exact rxByte_keeps_rxInv h (Option.some.inj hres)
  case rxAbort =>
    cases hres
    obtain ⟨-, -, -, -, -, hwf, hrange⟩ := h
    exact .of_closed rfl rfl rfl rfl hwf hrange
  case rxClrf m => cases hres; exact h.withFlags _
  case txNop | txStart | txByte | txClrf | reset => cases hres

end Sys2Proof.Machine
end

section
/-! PROOFS. The TX invariants (10_state.md R33): the outbound stream ends in the open frame, and every TX op keeps it
so. -/

namespace Sys2Proof.Machine

theorem lastBytes_append_self {n : Nat} (w out : List Byte) (h : out.length = n) : lastBytes n (w ++ out) = out := by
  rw [lastBytes_append w out h.le, h, Nat.sub_self, lastBytes, Nat.sub_zero, List.drop_length, List.nil_append]

theorem append_lastBytes (n : Nat) (w : List Byte) : w.take (w.length - n) ++ lastBytes n w = w :=
  List.take_append_drop _ w

/-- The last bytes without the first of them are fewer last bytes. -/
theorem drop_lastBytes {k n : Nat} {w : List Byte} (h : k + n ≤ w.length) :
    (lastBytes (k + n) w).drop k = lastBytes n w := by
  rw [lastBytes, lastBytes, List.drop_drop]
  congr 1
  omega

@[simp] theorem header_length (p : Params) (l : Len) : (header p l).length = 3 := rfl

/-- A stream ends in an open frame exactly when it is something, then the header, then `tx.cnt` payload bytes with the
sum `tx.sum`. -/
theorem openFrame_iff {p : Params} {t : TxState} {wire : List Byte} :
    OpenFrame p t wire ↔
      ∃ pre bs, wire = pre ++ (header p t.len ++ bs) ∧ bs.length = t.cnt.toNat ∧ acc bs = t.sum := by
  constructor
  · rintro ⟨hlength, hheader, hacc⟩
    have hlong : 3 + t.cnt.toNat ≤ wire.length := by
      rw [lastBytes, List.length_drop] at hlength
      omega
    refine ⟨wire.take (wire.length - (3 + t.cnt.toNat)), lastBytes t.cnt.toNat wire, ?_,
      lastBytes_length_of_le (by omega), hacc⟩
    rw [← hheader, ← drop_lastBytes hlong, List.take_append_drop, append_lastBytes]
  · rintro ⟨pre, bs, rfl, hlength, hacc⟩
    have hlast : lastBytes (3 + t.cnt.toNat) (pre ++ (header p t.len ++ bs)) = header p t.len ++ bs :=
      lastBytes_append_self pre _ (by rw [List.length_append, header_length, hlength])
    have hbytes : lastBytes t.cnt.toNat (pre ++ (header p t.len ++ bs)) = bs := by
      rw [← List.append_assoc, lastBytes_append_self _ _ hlength]
    exact ⟨by rw [hlast, List.length_append, header_length, hlength], by rw [hlast]; rfl, by rw [hbytes, hacc]⟩

/-- A framer with no frame open meets R33 with its registers at 0, whatever the stream. -/
theorem TxInv.of_closed {p : Params} {t : TxState} (hstate : t.state = .idle) (hlen : t.len = 0) (hcnt : t.cnt = 0)
    (hsum : t.sum = 0) (wire : List Byte) : TxInv p t wire :=
  ⟨fun _ => ⟨hlen, hcnt, hsum⟩, by simp [hstate]⟩

/-- A framer with a frame open meets R33 when bytes are owed and the stream ends in the frame. -/
theorem TxInv.of_open {p : Params} {t : TxState} {wire : List Byte} (hstate : t.state = .body)
    (howed : t.cnt.toNat < t.len.toNat) (hframe : OpenFrame p t wire) : TxInv p t wire :=
  ⟨by simp [hstate], fun _ => ⟨by omega, howed, hframe⟩⟩

/-- The flag is no part of R33. -/
theorem TxInv.withFlags {p : Params} {t : TxState} {wire : List Byte} (h : TxInv p t wire) (flags : BitVec 1) :
    TxInv p { t with flags := flags } wire := h

theorem TxInv.idle {p : Params} {t : TxState} {wire : List Byte} (h : TxInv p t wire) (hstate : t.state = .idle) :
    t.len = 0 ∧ t.cnt = 0 ∧ t.sum = 0 := h.1 hstate

theorem TxInv.body {p : Params} {t : TxState} {wire : List Byte} (h : TxInv p t wire) (hstate : t.state = .body) :
    t.cnt.toNat < t.len.toNat ∧ OpenFrame p t wire := (h.2 hstate).2

/-- The header just sent is an open frame without payload bytes. -/
theorem openFrame_header (p : Params) {t : TxState} (wire : List Byte) (hcnt : t.cnt = 0) (hsum : t.sum = 0) :
    OpenFrame p t (wire ++ header p t.len) :=
  openFrame_iff.mpr ⟨wire, [], by rw [List.append_nil], by rw [hcnt]; rfl, hsum.symm⟩

/-- One more payload byte on the wire is one more in the open frame. -/
theorem OpenFrame.snoc {p : Params} {t : TxState} {wire : List Byte} (h : OpenFrame p t wire) (d : Byte)
    (hcnt : (t.cnt + 1).toNat = t.cnt.toNat + 1) :
    OpenFrame p { t with sum := addSum t.sum d, cnt := t.cnt + 1 } (wire ++ [d]) := by
  obtain ⟨pre, bs, rfl, hlength, hacc⟩ := openFrame_iff.mp h
  refine openFrame_iff.mpr ⟨pre, bs ++ [d], by simp, ?_, by rw [acc_snoc, hacc]⟩
  rw [List.length_append, List.length_singleton, hlength, hcnt]

/-- The count does not wrap while it is below the length. -/
theorem toNat_add_one_of_lt {cnt len : Len} (h : cnt.toNat < len.toNat) : (cnt + 1).toNat = cnt.toNat + 1 := by
  have := len.isLt
  exact BitVec.toNat_add_of_lt (show cnt.toNat + 1 < 2 ^ 16 by omega)

/-- What a TX op can do: leave all but the flag alone, send an empty frame, open a frame, send the last byte of one with
its checksum byte, or pass a byte before the last (R126). -/
theorem txStep_cases {p : Params} {t : TxState} {i : Instr} {res : TxResult} (h : txStep p t i = some res) :
    (∃ flags, res.tx = { t with flags := flags } ∧ res.out = [] ∧ res.ev ≠ .frameDone) ∨
    (t.state = .idle ∧ res = { tx := t, out := [p.startDelim, 0x00, 0x00, 0xFF], ev := .frameDone }) ∨
    (∃ l, l ≠ 0#16 ∧ t.state = .idle ∧
      res = { tx := { t with len := l, cnt := 0, sum := 0, state := .body }, out := header p l, ev := .none }) ∨
    (∃ d, t.state = .body ∧ t.cnt.toNat + 1 = t.len.toNat ∧
      res = { tx := closeTx t, out := [d, cksumOf (addSum t.sum d)], ev := .frameDone }) ∨
    (∃ d, t.state = .body ∧ t.cnt.toNat + 1 ≠ t.len.toNat ∧
      res = { tx := { t with sum := addSum t.sum d, cnt := t.cnt + 1 }, out := [d], ev := .none }) := by
  have hrefused : raiseTx t .seqErr = res →
      ∃ flags, res.tx = { t with flags := flags } ∧ res.out = [] ∧ res.ev ≠ .frameDone := by
    rintro rfl
    exact ⟨_, rfl, rfl, TxEvent.noConfusion⟩
  cases i
  case rxNop | rxByte | rxAbort | rxClrf | reset => cases h
  case txNop | txClrf => cases h; exact .inl ⟨_, rfl, rfl, TxEvent.noConfusion⟩
  case txStart l =>
    have h : txStart p t l = res := Option.some.inj h
    rcases txStart_cases p t l with ⟨hidle, -, hrow⟩ | ⟨hidle, hl, hrow⟩ | ⟨-, hrow⟩ <;> rw [hrow] at h
    · exact .inr (.inl ⟨hidle, h.symm⟩)
    · exact .inr (.inr (.inl ⟨l, hl, hidle, h.symm⟩))
    · exact .inl (hrefused h)
  case txByte d =>
    have h : txByte t d = res := Option.some.inj h
    rcases txByte_cases t d with ⟨hbody, hlast, hrow⟩ | ⟨hbody, hmore, hrow⟩ | ⟨-, hrow⟩ <;> rw [hrow] at h
    · exact .inr (.inr (.inr (.inl ⟨d, hbody, hlast, h.symm⟩)))
    · exact .inr (.inr (.inr (.inr ⟨d, hbody, hmore, h.symm⟩)))
    · exact .inl (hrefused h)

theorem txStep_keeps_txInv {p : Params} {t : TxState} {wire : List Byte} {i : Instr} {res : TxResult}
    (h : TxInv p t wire) (hres : txStep p t i = some res) : TxInv p res.tx (wire ++ res.out) := by
  rcases txStep_cases hres with ⟨flags, htx, hout, -⟩ | ⟨hidle, rfl⟩ | ⟨l, hl, -, rfl⟩ | ⟨d, -, -, rfl⟩ |
    ⟨d, hbody, hmore, rfl⟩
  · rw [htx, hout, List.append_nil]
    exact h.withFlags flags
  · obtain ⟨hlen, hcnt, hsum⟩ := h.idle hidle
    exact .of_closed hidle hlen hcnt hsum _
  · have hpos : 0 < l.toNat := Nat.pos_of_ne_zero fun hzero => hl (BitVec.eq_of_toNat_eq hzero)
    exact .of_open rfl hpos (openFrame_header p wire rfl rfl)
  · exact .of_closed rfl rfl rfl rfl _
  · obtain ⟨howed, hframe⟩ := h.body hbody
    have hcnt := toNat_add_one_of_lt howed
    refine .of_open hbody ?_ (hframe.snoc d hcnt)
    rw [hcnt]
    exact Nat.lt_of_le_of_ne howed hmore

end Sys2Proof.Machine
end

section
/-! PROOFS. The invariants of both paths (10_state.md R27, R33): they hold right after reset, every step keeps them, and
under them no step stops (70_reset_and_hazards.md R202; 41_tx_framer.md R120; 42_rx_unframer.md R140). -/

namespace Sys2Proof.Machine

theorem RxInv.reset (p : Params) : RxInv p .reset :=
  .of_closed rfl rfl rfl rfl Memory.wf_nil (by simp [RxState.reset])

theorem TxInv.reset (p : Params) (wire : List Byte) : TxInv p .reset wire := .of_closed rfl rfl rfl rfl wire

/-- Under the invariants every op ends in a next state. -/
theorem exec_ok {s : State} (h : s.Inv) (i : Instr) : ∃ t, exec i s = .next t := by
  obtain ⟨hrx, -⟩ := h
  rcases exec_cases i s with ⟨hport, -⟩ | ⟨-, res, -, hexec⟩ | ⟨-, hexec⟩
  · obtain ⟨res, hres⟩ := rxStep_ok hrx hport
    exact ⟨_, exec_of_rxStep hres⟩
  · exact ⟨_, hexec⟩
  · exact ⟨_, hexec⟩

theorem exec_keeps_inv {i : Instr} {s t : State} (h : s.Inv) (hexec : exec i s = .next t) : t.Inv := by
  obtain ⟨hrx, htx⟩ := h
  rcases exec_next_cases hexec with ⟨-, res, hres, rfl⟩ | ⟨-, res, hres, rfl⟩ | ⟨-, rfl⟩
  · exact ⟨rxStep_keeps_rxInv hrx hres, htx⟩
  · exact ⟨hrx, txStep_keeps_txInv htx hres⟩
  · exact ⟨.reset _, .reset _ _⟩

/-- A run from a state with the invariants ends in a next state. -/
theorem execAll_ok {s : State} (h : s.Inv) (ops : List Instr) : ∃ t, execAll ops s = .next t := by
  induction ops generalizing s with
  | nil => exact ⟨s, rfl⟩
  | cons i ops ih =>
    obtain ⟨t, hexec⟩ := exec_ok h i
    rw [execAll_cons_of_next hexec]
    exact ih (exec_keeps_inv h hexec)

/-- The inputs are no part of the invariants. -/
theorem State.Inv.withInputs {s : State} (h : s.Inv) (inputs : List PortInput) :
    State.Inv { s with inputs := inputs } := h

end Sys2Proof.Machine

namespace Sys2Proof

open Machine

/-- Settles O57: every op keeps R27 by what is pending after it and R33 by where the stream ends, and a step is a run
of ops. -/
theorem stepKeepsTheInvariants : Obligations.StepKeepsTheInvariants := fun _ _ hinv hstep =>
  step_keeps (P := State.Inv) (fun _ _ _ => exec_keeps_inv) (fun _ rest h => h.withInputs rest) hinv hstep

/-- Settles O58: a step is a run of ops from a state with the invariants. -/
theorem stepNeverStops : Obligations.StepNeverStops := by
  intro s hinv
  cases hinputs : s.inputs with
  | nil => exact ⟨s, step_nil hinputs⟩
  | cons i rest =>
    rw [step_cons hinputs]
    exact execAll_ok (hinv.withInputs rest) i.ops

/-- Settles O56: both paths are closed, and nothing is stored. -/
theorem resetMeetsTheInvariants : Obligations.ResetMeetsTheInvariants := ⟨.reset _, .reset _ _⟩

end Sys2Proof
end

section
/-! PROOFS. RX ops and TX ops commute, so any interleaving of the two gives what the one after the other gives
(00_scope.md R10, 20_memory.md R61). -/

namespace Sys2Proof.Machine

/-- Two runs that begin with the same op agree when they agree after it. -/
theorem execAll_cons_congr {i : Instr} {is js : List Instr} {s : State}
    (h : ∀ t, exec i s = .next t → execAll is t = execAll js t) : execAll (i :: is) s = execAll (i :: js) s := by
  cases hexec : exec i s with
  | next t => rw [execAll_cons_of_next hexec, execAll_cons_of_next hexec, h t hexec]
  | fault f => simp [execAll, hexec]
  | refused x => simp [execAll, hexec]

/-- Every RX op is a step of the RX path. -/
theorem rxStep_of_port {i : Instr} (p : Params) (r : RxState) (h : i.port = .rx) :
    ∃ out, rxStep p r i = some out := by
  cases i
  case rxNop | rxByte | rxAbort | rxClrf => exact ⟨_, rfl⟩
  case txNop | txStart | txByte | txClrf | reset => cases h

/-- An RX op ends as its rule on the RX state says, in a next state or in a fault. -/
theorem exec_eq_finishRx {i : Instr} {s : State} {out : Except Fault RxResult}
    (h : rxStep s.params s.rx i = some out) : exec i s = finishRx s out := by
  cases i
  case rxNop | rxByte | rxAbort | rxClrf => cases h; rfl
  case txNop | txStart | txByte | txClrf | reset => cases h

/-- A TX op and an RX op, one after the other, may change places: the same next state or the same stop. -/
theorem execAll_swap {i j : Instr} (hi : i.port = .tx) (hj : j.port = .rx) (is : List Instr) (s : State) :
    execAll (i :: j :: is) s = execAll (j :: i :: is) s := by
  obtain ⟨res, hres⟩ := txStep_of_port s.params s.tx hi
  obtain ⟨out, hout⟩ := rxStep_of_port s.params s.rx hj
  have hj : exec j s = finishRx s out := exec_eq_finishRx hout
  have hj' : exec j (s.withTx res) = finishRx (s.withTx res) out := exec_eq_finishRx hout
  rw [execAll_cons_of_next (exec_of_txStep hres)]
  cases out with
  | error f =>
    rw [finishRx_error] at hj hj'
    simp [execAll, hj, hj']
  | ok r =>
    rw [finishRx_ok] at hj hj'
    have hi' : exec i (s.withRx r) = .next ((s.withRx r).withTx res) := exec_of_txStep hres
    rw [execAll_cons_of_next hj', execAll_cons_of_next hj, execAll_cons_of_next hi']
    rfl

/-- A TX op may move behind any number of RX ops. -/
theorem execAll_tx_behind_rx {i : Instr} {rs : List Instr} (hi : i.port = .tx) (hrs : ∀ j ∈ rs, j.port = .rx)
    (is : List Instr) (s : State) : execAll (i :: (rs ++ is)) s = execAll (rs ++ i :: is) s := by
  induction rs generalizing s with
  | nil => rfl
  | cons j rs ih =>
    obtain ⟨hj, hrs⟩ := List.forall_mem_cons.mp hrs
    rw [List.cons_append, execAll_swap hi hj]
    exact execAll_cons_congr fun t _ => ih hrs t

/-- The ops of the RX path in a list, in order. -/
def rxOps (ops : List Instr) : List Instr := ops.filter fun i => decide (i.port = .rx)

/-- The ops of the TX path in a list, in order. -/
def txOps (ops : List Instr) : List Instr := ops.filter fun i => decide (i.port = .tx)

theorem port_of_mem_rxOps {ops : List Instr} {i : Instr} (h : i ∈ rxOps ops) : i.port = .rx :=
  of_decide_eq_true (List.mem_filter.mp h).2

theorem port_eq_rx_or_tx {i : Instr} (h : i ≠ .reset) : i.port = .rx ∨ i.port = .tx := by
  cases i
  case rxNop | rxByte | rxAbort | rxClrf => exact .inl rfl
  case txNop | txStart | txByte | txClrf => exact .inr rfl
  case reset => exact absurd rfl h

theorem execAll_eq_rxOps_txOps {ops : List Instr} (hops : ∀ i ∈ ops, i ≠ .reset) (s : State) :
    execAll ops s = execAll (rxOps ops ++ txOps ops) s := by
  induction ops generalizing s with
  | nil => rfl
  | cons i ops ih =>
    obtain ⟨hi, hrest⟩ := List.forall_mem_cons.mp hops
    rcases port_eq_rx_or_tx hi with hport | hport
    · have hsplit : rxOps (i :: ops) ++ txOps (i :: ops) = i :: (rxOps ops ++ txOps ops) := by
        simp [rxOps, txOps, hport]
      rw [hsplit]
      exact execAll_cons_congr fun t _ => ih hrest t
    · have hsplit : rxOps (i :: ops) ++ txOps (i :: ops) = rxOps ops ++ i :: txOps ops := by
        simp [rxOps, txOps, hport]
      rw [hsplit, ← execAll_tx_behind_rx hport fun j => port_of_mem_rxOps]
      exact execAll_cons_congr fun t _ => ih hrest t

end Sys2Proof.Machine

namespace Sys2Proof

open Machine

/-- Settles O50: the first TX op moves behind the RX ops that follow it, one after the other. -/
theorem interleavingsAgree : Obligations.InterleavingsAgree := fun _ s hops => execAll_eq_rxOps_txOps hops s

end Sys2Proof
end

section
/-! PROOFS. Each op stays on its own path (10_state.md R20). -/

namespace Sys2Proof

open Machine

/-- Settles O49: an op's next state is its path's result put into the machine, and the result is a function of that
path's state and the parameters. -/
theorem opsStayOnTheirPath : Obligations.OpsStayOnTheirPath := by
  intro i s t hexec
  rcases exec_next_cases hexec with ⟨hport, res, hres, rfl⟩ | ⟨hport, res, hres, rfl⟩ | ⟨rfl, rfl⟩
  · refine ⟨fun _ => ⟨rfl, rfl, rfl, rfl, fun tx out ev wire => ?_⟩, fun htx => ?_, rfl, rfl⟩
    · exact exec_of_rxStep (s := { s with tx := tx, txOut := out, txEvent := ev, wireOut := wire }) hres
    · cases hport.symm.trans htx
  · refine ⟨fun hrx => ?_, fun _ => ⟨rfl, rfl, rfl, fun rx ev chan => ?_⟩, rfl, rfl⟩
    · cases hport.symm.trans hrx
    · exact exec_of_txStep (s := { s with rx := rx, rxEvent := ev, delivered := chan }) hres
  · exact ⟨Port.noConfusion, Port.noConfusion, rfl, rfl⟩

end Sys2Proof
end

section
/-! PROOFS. Decoder and encoder agree, and the bits of a word that an op ignores (30_encoding.md R77 to R81, R84,
R85). -/

namespace Sys2Proof

/-- The opcode of an op on its port; the pin has none. -/
def Instr.opcode : Instr → BitVec 2
  | .rxNop => 0b00#2
  | .rxByte _ => 0b01#2
  | .rxAbort => 0b10#2
  | .rxClrf _ => 0b11#2
  | .txNop => 0b00#2
  | .txStart _ => 0b01#2
  | .txByte _ => 0b10#2
  | .txClrf _ => 0b11#2
  | .reset => 0b00#2

theorem decodeRx_opcode (w : RxWord) : (decodeRx w).opcode = w.extractLsb' 8 2 := by
  rcases opcode_cases (w.extractLsb' 8 2) with h | h | h | h <;> simp [decodeRx, h, Instr.opcode]

theorem decodeTx_opcode (w : TxWord) : (decodeTx w).opcode = w.extractLsb' 16 2 := by
  rcases opcode_cases (w.extractLsb' 16 2) with h | h | h | h <;> simp [decodeTx, h, Instr.opcode]

/-- Two RX words of one opcode decode alike exactly when they agree in the operand bits that op uses. -/
theorem decodeRx_eq_iff_of_opcode {v w : RxWord} (hop : v.extractLsb' 8 2 = w.extractLsb' 8 2) :
    decodeRx v = decodeRx w ↔
      (v.extractLsb' 8 2 = 0b01#2 → v.extractLsb' 0 8 = w.extractLsb' 0 8) ∧
      (v.extractLsb' 8 2 = 0b11#2 → v.extractLsb' 0 4 = w.extractLsb' 0 4) := by
  rw [decodeRx, decodeRx, hop]
  rcases opcode_cases (w.extractLsb' 8 2) with h | h | h | h <;> simp [h]

/-- The same for two TX words. -/
theorem decodeTx_eq_iff_of_opcode {v w : TxWord} (hop : v.extractLsb' 16 2 = w.extractLsb' 16 2) :
    decodeTx v = decodeTx w ↔
      (v.extractLsb' 16 2 = 0b01#2 → v.extractLsb' 0 16 = w.extractLsb' 0 16) ∧
      (v.extractLsb' 16 2 = 0b10#2 → v.extractLsb' 0 8 = w.extractLsb' 0 8) ∧
      (v.extractLsb' 16 2 = 0b11#2 → v.extractLsb' 0 1 = w.extractLsb' 0 1) := by
  rw [decodeTx, decodeTx, hop]
  rcases opcode_cases (w.extractLsb' 16 2) with h | h | h | h <;> simp [h]

/-- A statement that implies another is equivalent to that other and what it comes to under it. -/
theorem iff_and_of_imp {a b c : Prop} (hab : a → b) (h : b → (a ↔ c)) : a ↔ b ∧ c :=
  ⟨fun ha => ⟨hab ha, (h (hab ha)).mp ha⟩, fun ⟨hb, hc⟩ => (h hb).mpr hc⟩

/-- The decoder of an op's own port gives the op back from its word. -/
theorem decode_encode (i : Instr) : decode (encode i) = .ok i := by
  obtain ⟨hrxNop, hrxByte, hrxAbort, hrxClrf, -⟩ := rxOpTableFixesEveryWord
  obtain ⟨htxNop, htxStart, htxByte, htxClrf, -⟩ := txOpTableFixesEveryWord
  cases i with
  | rxNop => exact congrArg Except.ok (hrxNop 0#8)
  | rxByte d => exact congrArg Except.ok (hrxByte d)
  | rxAbort => exact congrArg Except.ok (hrxAbort 0#8)
  | rxClrf m => exact congrArg Except.ok (hrxClrf 0#4 m)
  | txNop => exact congrArg Except.ok (htxNop 0#16)
  | txStart l => exact congrArg Except.ok (htxStart l)
  | txByte d => exact congrArg Except.ok (htxByte 0#8 d)
  | txClrf m => exact congrArg Except.ok (htxClrf 0#15 m)
  | reset => rfl

/-- Settles O1: the word of an op is one of the patterns of its port's table, which decode to their ops (R78, R79). -/
theorem decodeOfEncodeGivesTheInstruction : Obligations.DecodeOfEncodeGivesTheInstruction := by
  refine fun i => ⟨decode_encode i, ?_⟩
  cases i <;> trivial

/-- Settles O4: what a word decodes to fixes its opcode, and for one opcode the used operand bits. -/
theorem wordsThatDecodeAlikeDifferOnlyInIgnoredBits : Obligations.WordsThatDecodeAlikeDifferOnlyInIgnoredBits := by
  refine ⟨fun v w => iff_and_of_imp (fun h => ?_) decodeRx_eq_iff_of_opcode,
    fun v w => iff_and_of_imp (fun h => ?_) decodeTx_eq_iff_of_opcode⟩
  · rw [← decodeRx_opcode, ← decodeRx_opcode, h]
  · rw [← decodeTx_opcode, ← decodeTx_opcode, h]

/-- Settles O5: each word is a number of its port's width, on which the decoder computes. -/
theorem printedOpWordsDecode : Obligations.PrintedOpWordsDecode :=
  ⟨rfl, rfl, rfl, rfl, rfl, rfl, rfl, rfl, rfl, rfl⟩

/-- Settles O6: the records and the codes are those their definitions list. -/
theorem eventCodesAndFields : Obligations.EventCodesAndFields :=
  ⟨rfl, fun _ _ _ _ => rfl, fun _ _ => rfl, fun _ _ _ => rfl, fun _ => rfl, rfl, rfl, rfl⟩

end Sys2Proof
end

section
/-! PROOFS. Steps and runs of steps: how ops are presented, and what every op, and so every step, leaves of the streams,
the inputs and the parameters (20_memory.md R52, R53, R60; 10_state.md R38). -/

namespace Sys2Proof.Machine

/-! ### Presenting ops -/

/-- A step whose next input is an op's own word runs the op. -/
theorem step_of_ofInstr {s : State} {i : Instr} {rest : List PortInput}
    (h : s.inputs = PortInput.ofInstr i :: rest) : step s = exec i { s with inputs := rest } := by
  rw [step_cons h, PortInput.ofInstr, PortInput.ops_ofWord (decode_encode i), execAll_singleton]

theorem exec_keeps_inputs {i : Instr} {s t : State} (h : exec i s = .next t) : t.inputs = s.inputs := by
  rcases exec_next_cases h with ⟨-, res, -, rfl⟩ | ⟨-, res, -, rfl⟩ | ⟨-, rfl⟩ <;> rfl

theorem exec_keeps_params {i : Instr} {s t : State} (h : exec i s = .next t) : t.params = s.params := by
  rcases exec_next_cases h with ⟨-, res, -, rfl⟩ | ⟨-, res, -, rfl⟩ | ⟨-, rfl⟩ <;> rfl

theorem exec_next_inputs {i : Instr} {s t : State} (h : exec i s = .next t) (inputs : List PortInput) :
    exec i { s with inputs := inputs } = .next { t with inputs := inputs } := by
  rw [exec_inputs, h]

theorem exec_fault_inputs {i : Instr} {s : State} {f : Fault} (h : exec i s = .fault f) (inputs : List PortInput) :
    exec i { s with inputs := inputs } = .fault f := by
  rw [exec_inputs, h]

theorem run_succ_of_next {s t : State} (n : Nat) (h : step s = .next t) :
    Host.Core.run core (n + 1) s = Host.Core.run core n t := by
  have hstep : core.step s = .next t := h
  simp only [Host.Core.run, hstep]

theorem run_succ_of_fault {s : State} {f : Fault} (n : Nat) (h : step s = .fault f) :
    Host.Core.run core (n + 1) s = .fault f := by
  have hstep : core.step s = .fault f := h
  simp only [Host.Core.run, hstep]

theorem execAll_cons_of_fault {i : Instr} {is : List Instr} {s : State} {f : Fault} (h : exec i s = .fault f) :
    execAll (i :: is) s = .fault f := by
  simp [execAll, h]

/-- One step for each op, its own word presented, is a run of the ops. -/
theorem run_eq_execAll {ops : List Instr} {s : State} {rest : List PortInput}
    (h : s.inputs = ops.map PortInput.ofInstr ++ rest) :
    Host.Core.run core ops.length s = execAll ops { s with inputs := rest } := by
  induction ops generalizing s with
  | nil =>
    obtain rfl : s.inputs = rest := h
    rfl
  | cons i ops ih =>
    have hstep := step_of_ofInstr h
    cases hexec : exec i { s with inputs := ops.map PortInput.ofInstr ++ rest } with
    | next t =>
      exact (run_succ_of_next _ (hstep.trans hexec)).trans <| (ih (exec_keeps_inputs hexec)).trans
        (execAll_cons_of_next (exec_next_inputs hexec rest)).symm
    | fault f =>
      exact (run_succ_of_fault _ (hstep.trans hexec)).trans (execAll_cons_of_fault (exec_fault_inputs hexec rest)).symm
    | refused x => exact absurd hexec (exec_not_refused _ _ x)

/-! ### The streams -/

/-- `t` comes after `s` with at most `n` wire bytes emitted and at most `m` events delivered, none withdrawn, and the
same inputs still to be presented. -/
structure State.Grows (n m : Nat) (s t : State) : Prop where
  wire : ∃ out, out.length ≤ n ∧ t.wireOut = s.wireOut ++ out
  events : ∃ events, events.length ≤ m ∧ t.delivered = s.delivered ++ events
  inputs : t.inputs = s.inputs

theorem State.Grows.refl (s : State) : s.Grows 0 0 s :=
  ⟨⟨[], le_rfl, (List.append_nil _).symm⟩, ⟨[], le_rfl, (List.append_nil _).symm⟩, rfl⟩

theorem State.Grows.trans {n m n' m' : Nat} {s t u : State} (h : s.Grows n m t) (h' : t.Grows n' m' u) :
    s.Grows (n + n') (m + m') u := by
  obtain ⟨⟨out, hout, hwire⟩, ⟨events, hevents, hdelivered⟩, hinputs⟩ := h
  obtain ⟨⟨out', hout', hwire'⟩, ⟨events', hevents', hdelivered'⟩, hinputs'⟩ := h'
  refine ⟨⟨out ++ out', ?_, by rw [hwire', hwire, List.append_assoc]⟩,
    ⟨events ++ events', ?_, by rw [hdelivered', hdelivered, List.append_assoc]⟩, hinputs'.trans hinputs⟩
  · rw [List.length_append]
    exact Nat.add_le_add hout hout'
  · rw [List.length_append]
    exact Nat.add_le_add hevents hevents'

theorem RxEvent.onChannel_length_le (e : RxEvent) : e.onChannel.length ≤ 1 := by
  cases e <;> simp [RxEvent.onChannel]

/-- A TX op emits at most the four bytes of an empty frame (R122). -/
theorem txStep_out_length_le {p : Params} {t : TxState} {i : Instr} {res : TxResult}
    (h : txStep p t i = some res) : res.out.length ≤ 4 := by
  rcases txStep_cases h with ⟨-, -, hout, -⟩ | ⟨-, rfl⟩ | ⟨-, -, -, rfl⟩ | ⟨-, -, -, rfl⟩ | ⟨-, -, -, rfl⟩
  · simp [hout]
  all_goals simp

theorem exec_grows {i : Instr} {s t : State} (h : exec i s = .next t) :
    s.Grows (4 * (txOps [i]).length) (rxOps [i]).length t := by
  rcases exec_next_cases h with ⟨hport, res, -, rfl⟩ | ⟨hport, res, hres, rfl⟩ | ⟨rfl, rfl⟩
  · have hrx : rxOps [i] = [i] := by simp [rxOps, hport]
    refine ⟨⟨[], Nat.zero_le _, (List.append_nil _).symm⟩, ⟨res.ev.onChannel, ?_, rfl⟩, rfl⟩
    rw [hrx]
    exact res.ev.onChannel_length_le
  · have htx : txOps [i] = [i] := by simp [txOps, hport]
    refine ⟨⟨res.out, ?_, rfl⟩, ⟨[], Nat.zero_le _, (List.append_nil _).symm⟩, rfl⟩
    rw [htx]
    exact txStep_out_length_le hres
  · exact ⟨⟨[], le_rfl, (List.append_nil _).symm⟩, ⟨[], le_rfl, (List.append_nil _).symm⟩, rfl⟩

/-- A run emits at most four bytes for each TX op and delivers at most one event for each RX op. -/
theorem execAll_grows {ops : List Instr} {s t : State} (h : execAll ops s = .next t) :
    s.Grows (4 * (txOps ops).length) (rxOps ops).length t := by
  induction ops generalizing s with
  | nil => cases h; exact .refl _
  | cons i ops ih =>
    obtain ⟨u, hexec, hrun⟩ := execAll_cons_next h
    have htx : txOps (i :: ops) = txOps [i] ++ txOps ops := List.filter_append (l₁ := [i]) (l₂ := ops)
    have hrx : rxOps (i :: ops) = rxOps [i] ++ rxOps ops := List.filter_append (l₁ := [i]) (l₂ := ops)
    rw [htx, hrx, List.length_append, List.length_append, Nat.mul_add]
    exact (exec_grows hexec).trans (ih hrun)

theorem decodeRx_port (w : RxWord) : (decodeRx w).port = .rx := by
  rcases opcode_cases (w.extractLsb' 8 2) with h | h | h | h <;> simp [decodeRx, h, Instr.port]

theorem decodeTx_port (w : TxWord) : (decodeTx w).port = .tx := by
  rcases opcode_cases (w.extractLsb' 16 2) with h | h | h | h <;> simp [decodeTx, h, Instr.port]

/-- An input carries at most one op for each path (U7). -/
theorem portInput_ops_length_le (i : PortInput) : (rxOps i.ops).length ≤ 1 ∧ (txOps i.ops).length ≤ 1 := by
  unfold PortInput.ops
  split
  · decide
  · cases i.rx <;> cases i.tx <;> simp [rxOps, txOps, decodeRx_port, decodeTx_port]

theorem step_grows {s t : State} (h : step s = .next t) :
    State.Grows 4 1 { s with inputs := s.inputs.drop 1 } t := by
  cases hinputs : s.inputs with
  | nil =>
    rw [step_nil hinputs] at h
    cases h
    exact ⟨⟨[], Nat.zero_le _, (List.append_nil _).symm⟩, ⟨[], Nat.zero_le _, (List.append_nil _).symm⟩, hinputs⟩
  | cons i rest =>
    rw [step_cons hinputs] at h
    obtain ⟨⟨out, hout, hwire⟩, ⟨events, hevents, hdelivered⟩, hrest⟩ := execAll_grows h
    obtain ⟨hrx, htx⟩ := portInput_ops_length_le i
    exact ⟨⟨out, by omega, hwire⟩, ⟨events, by omega, hdelivered⟩, hrest⟩

end Sys2Proof.Machine

namespace Sys2Proof

open Machine

/-- Settles O8: an input that is one word alone presents the op the word decodes to, and a run of one op is the op. -/
theorem stepRunsTheDecodedOp : Obligations.StepRunsTheDecodedOp := by
  intro s p i rest hdecode hinputs
  rw [step_cons hinputs, PortInput.ops_ofWord hdecode, execAll_singleton]

/-- Settles O10: without an input nothing runs, and the quiet input presents no op. -/
theorem stepWithoutAnOpChangesNothing : Obligations.StepWithoutAnOpChangesNothing := by
  refine fun s rest => ⟨step_nil, fun hquiet => ?_⟩
  have hops : PortInput.ops {} = [] := rfl
  rw [step_cons hquiet, hops, execAll_nil]

/-- Settles O11: step by step, since an op neither reads nor writes what is still to be presented. -/
theorem runOfInputsIsRunOfOps : Obligations.RunOfInputsIsRunOfOps := fun _ _ _ => run_eq_execAll

/-- Settles O54: an input carries at most one op for each path, and each op adds to its own path's stream. -/
theorem streamsOnlyGrowAndInputsAreTakenInOrder : Obligations.StreamsOnlyGrowAndInputsAreTakenInOrder := by
  intro s t hstep
  obtain ⟨hwire, hevents, hinputs⟩ := step_grows hstep
  exact ⟨hwire, hevents, hinputs⟩

/-- Settles O55: no op changes the parameters, and a step is a run of ops. -/
theorem parametersNeverChange : Obligations.ParametersNeverChange := fun s _ hstep =>
  step_keeps (P := fun u => u.params = s.params) (fun _ _ _ h hexec => (exec_keeps_params hexec).trans h)
    (fun _ _ h => h) rfl hstep

end Sys2Proof
end

section
/-! PROOFS. The unframer under the invariants, byte by byte and over runs of bytes: the position in the envelope, how an
envelope closes, what is delivered, and that neither flags nor stale bytes of the buffer matter
(42_rx_unframer.md R147 to R156; 10_state.md R25, R26, R36). -/

namespace Sys2Proof.Machine

/-! ### Positions -/

/-- The wire index counts the pending bytes (R36). -/
theorem RxState.Pending.wireIndex {p : Params} {r : RxState} {w : List Byte} (h : r.Pending p w) :
    r.wireIndex = w.length := by
  obtain ⟨hincomplete, hview, -⟩ := h
  cases UnframeReads.of_eq hincomplete with
  | empty | delimiterAlone | highByteLast =>
    obtain ⟨hstate, -⟩ := RxState.view_eq_iff.mp hview
    simp [RxState.wireIndex, hstate]
  | short hi lo body hmax hshort =>
    obtain ⟨hstate, hlen, hcnt, -⟩ := RxState.view_eq_iff.mp hview
    rw [← lenOfBytes_toNat] at hshort
    have hlt := (lenOfBytes hi lo).isLt
    have hcntNat : r.cnt.toNat = body.length := by
      rw [hcnt]
      exact Nat.mod_eq_of_lt (by omega)
    split at hstate
    · next hfull => simp [RxState.wireIndex, hstate, hlen, ← hfull, Nat.add_comm 3]
    · simp [RxState.wireIndex, hstate, hcntNat, Nat.add_comm 3]

/-- Only a byte that opens nothing, the low length byte and the checksum byte can raise an event (R155). -/
theorem rxByte_state_of_event {p : Params} {r : RxState} {d : Byte} {res : RxResult} (h : rxByte p r d = .ok res)
    (hev : res.ev ≠ .none) : r.state = .hunt ∨ r.state = .lenLo ∨ r.state = .cksum := by
  rcases rxByte_cases h with ⟨hstate, -, rfl⟩ | ⟨hstate, -, rfl⟩ | ⟨-, rfl⟩ | ⟨hstate, -, rfl⟩ | ⟨hstate, -, rfl⟩ |
    ⟨hstate, -, -, rfl⟩ | ⟨-, -, rfl⟩ | ⟨hstate, -, payload, -, rfl⟩ | ⟨hstate, -, rfl⟩
  case inr.inr.inl => exact absurd rfl hev
  case inr.inr.inr.inr.inr.inr.inl => exact absurd rfl hev
  all_goals simp [hstate]

/-- Outside HUNT the delimiter is not looked at (R147). -/
theorem rxByte_startDelim {p : Params} {r : RxState} (d delim : Byte) (hopen : r.state ≠ .hunt) :
    rxByte { p with startDelim := delim } r d = rxByte p r d := by
  unfold rxByte
  cases hstate : r.state with
  | hunt => exact absurd hstate hopen
  | lenHi | lenLo | payload | cksum => rfl

/-! ### What is delivered -/

/-- `FRAME_OK` is raised only by a matching checksum byte, with the payload read from the buffer (R148). -/
theorem rxStep_frameOk {p : Params} {r : RxState} {i : Instr} {res : RxResult} {len : Len} {exp got : Byte}
    {payload : List Byte} (hres : rxStep p r i = some (.ok res)) (hev : res.ev = .frameOk len exp got payload) :
    r.state = .cksum ∧ i = .rxByte got ∧ got = exp ∧ exp = cksumOf r.sum ∧ len = r.len ∧
      memRead r 0 r.len.toNat = .ok payload := by
  cases i
  case rxNop | rxAbort | rxClrf => cases hres; cases hev
  case rxByte d =>
    rcases rxByte_cases (Option.some.inj hres) with ⟨-, -, rfl⟩ | ⟨-, -, rfl⟩ | ⟨-, rfl⟩ | ⟨-, -, rfl⟩ | ⟨-, -, rfl⟩ |
      ⟨-, -, -, rfl⟩ | ⟨-, -, rfl⟩ | ⟨hstate, hd, bs, hread, rfl⟩ | ⟨-, -, rfl⟩
    case inr.inr.inr.inr.inr.inr.inr.inl =>
      cases hev
      exact ⟨hstate, rfl, hd, rfl, rfl, hread⟩
    all_goals cases hev
  case txNop | txStart | txByte | txClrf | reset => cases hres

/-- An op delivers its event, if it has one, and nothing else (R154). -/
theorem exec_delivers {i : Instr} {s t : State} (h : exec i s = .next t) :
    t.delivered = s.delivered ∨ ∃ e, e ≠ .none ∧ t.rxEvent = e ∧ t.delivered = s.delivered ++ [e] := by
  rcases exec_next_cases h with ⟨-, res, -, rfl⟩ | ⟨-, res, -, rfl⟩ | ⟨-, rfl⟩
  · by_cases hev : res.ev = .none
    · exact .inl (by rw [State.withRx_delivered, hev, RxEvent.onChannel_none, List.append_nil])
    · exact .inr ⟨res.ev, hev, rfl, by rw [State.withRx_delivered, RxEvent.onChannel_of_ne hev]⟩
  · exact .inl rfl
  · exact .inl rfl

/-! ### Owed bytes -/

/-- Bytes that leave the envelope incomplete are pending behind those that were, and nothing is delivered. -/
theorem execAll_bytes_of_incomplete {s : State} {w bs : List Byte} (h : s.rx.Pending s.params w)
    (hincomplete : unframe s.params (w ++ bs) = .incomplete) :
    ∃ t, execAll (bs.map .rxByte) s = .next t ∧ t.rx.Pending s.params (w ++ bs) ∧ t.delivered = s.delivered := by
  have hfeeds : ∀ i ∈ bs.map Instr.rxByte, i.feedsRx = true := by simp [Instr.feedsRx]
  obtain ⟨t, hrun, hdelivered, hpending, -⟩ := execAll_feed hfeeds h
  have hcalls : unframeCalls s.params (w ++ bs) = ([], w ++ bs) :=
    unframeCalls_of_incomplete (by rw [hincomplete]; rfl)
  rw [wireBytes_map_rxByte, hcalls] at hdelivered hpending
  exact ⟨t, hrun, hpending, hdelivered.trans (List.append_nil _)⟩

/-- In PAYLOAD the owed bytes lead to CKSUM, where the whole payload is collected. -/
theorem execAll_owed_bytes {s : State} {bs : List Byte} (hinv : s.Inv) (hstate : s.rx.state = .payload)
    (howed : s.rx.cnt.toNat + bs.length = s.rx.len.toNat) :
    ∃ collected, s.rx.collected = some collected ∧ ∃ t, execAll (bs.map .rxByte) s = .next t ∧
      t.rx.state = .cksum ∧ t.rx.len = s.rx.len ∧ t.rx.collected = some (collected ++ bs) ∧
      t.delivered = s.delivered := by
  obtain ⟨hrx, -⟩ := hinv
  obtain ⟨collected, hcollected, hpending⟩ := hrx.pending_payload hstate
  obtain ⟨-, -, hpayload, -⟩ := hrx
  obtain ⟨-, hmax, -⟩ := hpayload hstate
  have hlen : lenOfBytes (lenHigh s.rx.len) (lenLow s.rx.len) = s.rx.len := lenOfBytes_split s.rx.len
  have hfull : (collected ++ bs).length = s.rx.len.toNat := by
    rw [List.length_append, RxState.collected_length hcollected, howed]
  have hincomplete : unframe s.params
      (s.params.startDelim :: lenHigh s.rx.len :: lenLow s.rx.len :: (collected ++ bs)) = .incomplete :=
    unframe_of_short (by rw [← lenOfBytes_toNat, hlen]) hmax hfull.le
  obtain ⟨t, hrun, hpending', hdelivered⟩ := execAll_bytes_of_incomplete hpending hincomplete
  rw [List.cons_append, List.cons_append, List.cons_append] at hpending'
  obtain ⟨hstate', hlen', -⟩ := RxState.view_eq_iff.mp hpending'.view
  rw [hlen, if_pos hfull] at hstate'
  exact ⟨collected, hcollected, t, hrun, hstate', hlen'.trans hlen, hpending'.collected, hdelivered⟩

/-! ### Flags and stale bytes -/

/-- From the same pending bytes, a byte raises the same event and leaves the same bytes pending. -/
theorem ByteTaken.agree {p : Params} {w : List Byte} {d : Byte} {res res' : RxResult} (h : ByteTaken p w d res)
    (h' : ByteTaken p w d res') : res.rx.Alike res'.rx ∧ res.ev = res'.ev := by
  cases h with
  | joins hquiet hpending =>
    cases h' with
    | joins hquiet' hpending' => exact ⟨hpending.alike hpending', hquiet.trans hquiet'.symm⟩
    | ends _ _ hcall =>
      have hrest := (hcall []).1
      rw [hpending.incomplete] at hrest
      cases hrest
  | ends _ hclosed hcall =>
    cases h' with
    | joins _ hpending' =>
      have hrest := (hcall []).1
      rw [hpending'.incomplete] at hrest
      cases hrest
    | ends _ hclosed' hcall' => exact ⟨hclosed.alike hclosed', (hcall []).2.symm.trans (hcall' []).2⟩

/-- An RX op takes states that differ in flags and stale bytes only to such states, with the same event. -/
theorem rxStep_of_alike {p : Params} {a b : RxState} {i : Instr} {res : RxResult} (hinv : RxInv p a) (h : a.Alike b)
    (hres : rxStep p a i = some (.ok res)) :
    ∃ res', rxStep p b i = some (.ok res') ∧ res.rx.Alike res'.rx ∧ res.ev = res'.ev := by
  cases i
  case rxNop => cases hres; exact ⟨_, rfl, h, rfl⟩
  case rxByte d =>
    obtain ⟨w, hpending⟩ := hinv.pending
    have hpending' : b.Pending p w := .of_alike ⟨h.1.symm, h.2.symm⟩ hpending
    obtain ⟨res', hres', htaken'⟩ := rxByte_pending (d := d) hpending'
    exact ⟨res', congrArg some hres', (hpending.byteTaken (Option.some.inj hres)).agree htaken'⟩
  case rxAbort => cases hres; exact ⟨_, rfl, ⟨rfl, rfl⟩, rfl⟩
  case rxClrf m => cases hres; exact ⟨_, rfl, h, rfl⟩
  case txNop | txStart | txByte | txClrf | reset => cases hres

/-- A TX op raises the same event in states that differ in the flag only. -/
theorem txStep_ev_of_view_eq {p : Params} {t u : TxState} {i : Instr} {res res' : TxResult} (h : t.view = u.view)
    (hres : txStep p t i = some res) (hres' : txStep p u i = some res') : res.ev = res'.ev := by
  obtain ⟨state, len, cnt, sum, flags⟩ := t
  obtain ⟨_, _, _, _, flags'⟩ := u
  cases h
  cases i
  case rxNop | rxByte | rxAbort | rxClrf | reset => cases hres
  case txNop | txClrf => cases hres; cases hres'; rfl
  case txStart l =>
    cases hres
    cases hres'
    cases state
    case idle => simp only [txStart]; split <;> rfl
    case body => rfl
  case txByte d =>
    cases hres
    cases hres'
    cases state
    case idle => rfl
    case body => simp only [txByte]; split <;> rfl

/-- Two states agree in all that the behaviour may depend on. -/
structure State.Agree (s t : State) : Prop where
  params : s.params = t.params
  rx : s.rx.Alike t.rx
  tx : s.tx.view = t.tx.view

/-- `s'` and `t'` come after `s` and `t` with the same additions to the delivery channel and to the outbound stream. -/
def State.GrowAlike (s s' t t' : State) : Prop :=
  ∃ events bytes, s'.delivered = s.delivered ++ events ∧ t'.delivered = t.delivered ++ events ∧
    s'.wireOut = s.wireOut ++ bytes ∧ t'.wireOut = t.wireOut ++ bytes

theorem State.GrowAlike.refl (s t : State) : State.GrowAlike s s t t := ⟨[], [], by simp⟩

theorem State.GrowAlike.trans {s s' s'' t t' t'' : State} (h : State.GrowAlike s s' t t')
    (h' : State.GrowAlike s' s'' t' t'') : State.GrowAlike s s'' t t'' := by
  obtain ⟨events, bytes, hs, ht, hws, hwt⟩ := h
  obtain ⟨events', bytes', hs', ht', hws', hwt'⟩ := h'
  exact ⟨events ++ events', bytes ++ bytes', by simp [*]⟩

/-- One op from two states that agree: the same line of the trace, the same additions to the streams. -/
theorem exec_agree {i : Instr} {s t s' : State} (hinv : s.Inv) (h : s.Agree t) (hexec : exec i s = .next s') :
    ∃ t', exec i t = .next t' ∧ s'.Agree t' ∧ traceEntry i s' = traceEntry i t' ∧ State.GrowAlike s s' t t' := by
  obtain ⟨hparams, hrx, htx⟩ := h
  rcases exec_next_cases hexec with ⟨hport, res, hres, rfl⟩ | ⟨hport, res, hres, rfl⟩ | ⟨rfl, rfl⟩
  · obtain ⟨res', hres', halike, hev⟩ := rxStep_of_alike hinv.1 hrx hres
    rw [hparams] at hres'
    refine ⟨_, exec_of_rxStep hres', ⟨hparams, halike, htx⟩, ?_, res.ev.onChannel, [], rfl, ?_, ?_, ?_⟩
    · simp [traceEntry, hport, hev, halike.1, htx]
    · rw [State.withRx_delivered, hev]
    · exact (List.append_nil _).symm
    · exact (List.append_nil _).symm
  · rw [hparams] at hres
    obtain ⟨res', hres', hview, hout⟩ := txStep_of_view_eq htx hres
    have hev := txStep_ev_of_view_eq htx hres hres'
    refine ⟨_, exec_of_txStep hres', ⟨hparams, hrx, hview⟩, ?_, [], res.out, ?_, ?_, rfl, ?_⟩
    · simp [traceEntry, hport, hev, hout, hview, hrx.1]
    · exact (List.append_nil _).symm
    · exact (List.append_nil _).symm
    · rw [State.withTx_wireOut, hout]
  · exact ⟨_, rfl, ⟨hparams, ⟨rfl, rfl⟩, rfl⟩, rfl, [], [], by simp⟩

/-- Runs from two states that agree. -/
theorem execAll_agree {ops : List Instr} {s t : State} (hinv : s.Inv) (h : s.Agree t) :
    ∃ u v, execAll ops s = .next u ∧ execAll ops t = .next v ∧ u.Agree v ∧ traceOf ops s = traceOf ops t ∧
      State.GrowAlike s u t v := by
  induction ops generalizing s t with
  | nil => exact ⟨s, t, rfl, rfl, h, rfl, .refl s t⟩
  | cons i ops ih =>
    obtain ⟨s', hexec⟩ := exec_ok hinv i
    obtain ⟨t', hexec', hagree, hline, hgrow⟩ := exec_agree hinv h hexec
    obtain ⟨u, v, hrun, hrun', hagree', htrace, hgrow'⟩ := ih (exec_keeps_inv hinv hexec) hagree
    refine ⟨u, v, ?_, ?_, hagree', ?_, hgrow.trans hgrow'⟩
    · rw [execAll_cons_of_next hexec, hrun]
    · rw [execAll_cons_of_next hexec', hrun']
    · rw [traceOf_cons_of_next hexec, traceOf_cons_of_next hexec', hline, htrace]

end Sys2Proof.Machine

namespace Sys2Proof

open Machine

/-- Settles O37: the owed bytes lead to CKSUM with the whole payload collected, and there the checksum byte gives the
verdict (R148). -/
theorem owedBytesCloseTheEnvelope : Obligations.OwedBytesCloseTheEnvelope := by
  intro s bs last hinv hstate howed
  obtain ⟨collected, hcollected, t, hrun, hcksum, hlen, hwhole, hdelivered⟩ := execAll_owed_bytes hinv hstate howed
  refine ⟨collected, hcollected, ⟨t, hrun, hcksum, hdelivered⟩, ?_⟩
  have hinv' : t.Inv := execAll_keeps (P := State.Inv) (fun _ _ _ => exec_keeps_inv) hinv hrun
  obtain ⟨payload, hpayload, -, -, hmatch, hmismatch⟩ := rxByteGivesTheVerdict t last hinv' hcksum
  obtain rfl : collected ++ bs = payload := Option.some.inj (hwhole.symm.trans hpayload)
  rw [List.map_append, List.map_singleton, ← hdelivered, ← hlen]
  by_cases hd : last = checksum (collected ++ bs)
  · rw [if_pos hd]
    refine ⟨_, execAll_snoc_of_next hrun (hmatch hd), rfl, ?_⟩
    rw [← hd]
  · rw [if_neg hd]
    exact ⟨_, execAll_snoc_of_next hrun (hmismatch hd), rfl, rfl⟩

/-- Settles O51: op by op, the unframer by its pending bytes and the framer by its view. -/
theorem flagsAndStaleBytesInfluenceNothing : Obligations.FlagsAndStaleBytesInfluenceNothing := by
  intro ops s t hinv _ hparams hrx htx
  obtain ⟨u, v, hrun, hrun', ⟨-, hrx', htx'⟩, htrace, events, bytes, hgrow⟩ :=
    execAll_agree (ops := ops) hinv ⟨hparams, hrx, htx⟩
  exact ⟨u, v, events, bytes, hrun, hrun', hrx', htx', htrace, hgrow⟩

/-- Settles O30: the step outside HUNT is the same function of the byte for every delimiter, and has a result under
the invariants. -/
theorem delimiterValueIsSpecialOnlyInHunt : Obligations.DelimiterValueIsSpecialOnlyInHunt := by
  intro s d delim hinv hopen
  obtain ⟨res, hres⟩ := hinv.1.rxByte_ok d
  refine ⟨s.withRx res, exec_rxByte hres, ?_⟩
  exact exec_rxByte (s := { s with params := { s.params with startDelim := delim } })
    ((rxByte_startDelim d delim hopen).trans hres)

/-- Settles O31: a byte that raises nothing joins the pending ones, and an event leaves none pending. -/
theorem rxByteAdvancesOneWireByte : Obligations.RxByteAdvancesOneWireByte := by
  intro s d hinv
  obtain ⟨w, hpending⟩ := hinv.1.pending
  obtain ⟨res, hres, htaken⟩ := rxByte_pending (d := d) hpending
  refine ⟨s.withRx res, exec_rxByte hres, ?_⟩
  rw [State.withRx_rxEvent, State.withRx_rx, hpending.wireIndex]
  cases htaken with
  | joins hquiet hjoined =>
    refine ⟨fun _ => ?_, fun hev => absurd hquiet hev⟩
    rw [hjoined.wireIndex, List.length_append, List.length_singleton]
  | ends hraised hclosed _ =>
    exact ⟨fun hev => absurd hev hraised, fun hev => ⟨hclosed.wireIndex, rxByte_state_of_event hres hev⟩⟩

/-- Settles O32: only reset, an abort and a byte move the unframer, and a byte after which nothing is pending ended a
call of `unframe`. -/
theorem closedEnvelopeLeavesResetControlState : Obligations.ClosedEnvelopeLeavesResetControlState := by
  intro i s hinv hopen
  by_cases hreset : i = .reset
  · subst hreset
    exact ⟨_, rfl, fun _ => ⟨rfl, .inl rfl⟩⟩
  by_cases habort : i = .rxAbort
  · subst habort
    refine ⟨_, exec_rxAbort (rxAbort_open hopen), fun _ => ⟨rfl, .inr (.inl ⟨rfl, ?_⟩)⟩⟩
    simp
  cases hbyte : i.wireByte with
  | none =>
    obtain ⟨t, hexec, hkeeps⟩ := exec_keepsEnvelope s habort hreset hbyte
    exact ⟨t, hexec, fun hhunt => absurd (hkeeps.state.symm.trans hhunt) hopen⟩
  | some d =>
    obtain rfl : i = .rxByte d := by cases i <;> cases hbyte; rfl
    obtain ⟨w, hpending⟩ := hinv.1.pending
    obtain ⟨res, hres, htaken⟩ := rxByte_pending (d := d) hpending
    refine ⟨s.withRx res, exec_rxByte hres, fun hhunt => ?_⟩
    cases htaken with
    | joins _ hjoined => exact absurd (hjoined.state_eq_hunt.mp hhunt) (by simp)
    | ends hraised hclosed _ => exact ⟨hclosed.view, .inr (.inr ⟨d, rfl, hraised⟩)⟩

/-- Settles O36: an op delivers its own event, and `FRAME_OK` is that of the checksum byte, where the bytes read are the
bytes collected. -/
theorem frameOkOnlyAtAMatchingChecksum : Obligations.FrameOkOnlyAtAMatchingChecksum := by
  intro i s t hinv hexec
  refine ⟨exec_delivers hexec, fun len exp got payload hport hev => ?_⟩
  rcases exec_next_cases hexec with ⟨-, res, hres, rfl⟩ | ⟨htx, -⟩ | ⟨rfl, -⟩
  · obtain ⟨hstate, hi, hgot, hexp, rfl, hread⟩ := rxStep_frameOk hres hev
    obtain ⟨collected, hcollected, hcnt, hcksum⟩ := hinv.1.cksum hstate
    obtain ⟨-, hrange⟩ := memRead_eq_ok.mp hread
    rw [← hcnt] at hrange
    obtain rfl : collected = payload := Option.some.inj (hcollected.symm.trans hrange)
    exact ⟨hstate, hi, hgot, hexp.trans hcksum, hcnt ▸ RxState.collected_length hcollected, hcollected⟩
  · cases hport.symm.trans htx
  · cases hport

/-- Settles O53: only `RX_BYTE` writes to the buffer, and a write leaves every other address alone. -/
theorem bufferChangesOnlyByCollection : Obligations.BufferChangesOnlyByCollection := by
  intro i s t a hexec hreset hother
  rcases exec_next_cases hexec with ⟨-, res, hres, rfl⟩ | ⟨-, res, -, rfl⟩ | ⟨hi, -⟩
  · cases i
    case rxNop | rxAbort | rxClrf => cases hres; rfl
    case rxByte d =>
      rcases rxByte_buf (Option.some.inj hres) with hbuf | ⟨hstate, -, hbuf⟩
      · rw [State.withRx_rx, hbuf]
      · rw [State.withRx_rx, hbuf, Memory.read_write_other _ _ (hother d rfl hstate)]
    case txNop | txStart | txByte | txClrf | reset => cases hres
  · rfl
  · exact absurd hi hreset

end Sys2Proof
end

section
/-! PROOFS. An open frame: how it ends, and that it waits for exactly its announced bytes (41_tx_framer.md R125,
R128). -/

namespace Sys2Proof.Machine

/-- The last byte of an open frame and its checksum byte complete the envelope of a payload of the announced
length. -/
theorem OpenFrame.complete {p : Params} {t : TxState} {wire : List Byte} (h : OpenFrame p t wire)
    (hlast : t.cnt.toNat + 1 = t.len.toNat) (d : Byte) :
    ∃ pre payload, wire ++ [d, cksumOf (addSum t.sum d)] = pre ++ envelope p payload ∧
      payload.length = t.len.toNat := by
  obtain ⟨pre, bs, rfl, hlength, hacc⟩ := openFrame_iff.mp h
  have hlen : (bs ++ [d]).length = t.len.toNat := by rw [List.length_append, List.length_singleton, hlength, hlast]
  have hfits : (bs ++ [d]).length ≤ 65535 := by
    have := t.len.isLt
    omega
  refine ⟨pre, bs ++ [d], ?_, hlen⟩
  rw [envelope_eq_header p hfits, hlen, BitVec.ofNat_toNat, BitVec.setWidth_eq, ← cksumOf_acc, acc_snoc, hacc]
  simp

/-- A TX op that raises `FRAME_DONE` leaves the framer idle and a complete envelope at the end of the stream. -/
theorem txStep_frameDone {p : Params} {t : TxState} {wire : List Byte} {i : Instr} {res : TxResult}
    (hinv : TxInv p t wire) (hres : txStep p t i = some res) (hev : res.ev = .frameDone) :
    res.tx.state = .idle ∧ ∃ pre payload, wire ++ res.out = pre ++ envelope p payload ∧
      (t.state = .body → payload.length = t.len.toNat) ∧ (t.state = .idle → payload = []) := by
  rcases txStep_cases hres with ⟨-, -, -, hne⟩ | ⟨hidle, rfl⟩ | ⟨l, -, -, rfl⟩ | ⟨d, hbody, hlast, rfl⟩ |
    ⟨d, -, -, rfl⟩
  · exact absurd hev hne
  · exact ⟨hidle, wire, [], rfl, by simp [hidle], fun _ => rfl⟩
  · cases hev
  · obtain ⟨pre, payload, hwire, hlen⟩ := (hinv.body hbody).2.complete hlast d
    exact ⟨rfl, pre, payload, hwire, fun _ => hlen, by simp [hbody]⟩
  · cases hev

/-- A TX op without `FRAME_DONE` leaves an open frame open. -/
theorem txStep_body_of_not_frameDone {p : Params} {t : TxState} {i : Instr} {res : TxResult}
    (hres : txStep p t i = some res) (hev : res.ev ≠ .frameDone) (hbody : t.state = .body) :
    res.tx.state = .body := by
  rcases txStep_cases hres with ⟨flags, htx, -, -⟩ | ⟨-, rfl⟩ | ⟨l, -, -, rfl⟩ | ⟨d, -, -, rfl⟩ | ⟨d, -, -, rfl⟩
  · rw [htx]
    exact hbody
  · exact absurd rfl hev
  · rfl
  · exact absurd rfl hev
  · exact hbody

/-- A TX op without `FRAME_DONE` that leaves an idle framer idle emits nothing. -/
theorem txStep_out_of_idle {p : Params} {t : TxState} {i : Instr} {res : TxResult} (hres : txStep p t i = some res)
    (hev : res.ev ≠ .frameDone) (hidle : t.state = .idle) (hidle' : res.tx.state = .idle) : res.out = [] := by
  rcases txStep_cases hres with ⟨-, -, hout, -⟩ | ⟨-, rfl⟩ | ⟨l, -, -, rfl⟩ | ⟨d, hbody, -, rfl⟩ | ⟨d, hbody, -, rfl⟩
  · exact hout
  · exact absurd rfl hev
  · cases hidle'
  · cases hidle.symm.trans hbody
  · cases hidle.symm.trans hbody

/-- Nothing but a `TX_BYTE` and reset moves an open frame. -/
theorem exec_keeps_frame {i : Instr} {s t : State} (hexec : exec i s = .next t) (hreset : i ≠ .reset)
    (hbyte : i.payloadByte = none) (hbody : s.tx.state = .body) : t.tx.view = s.tx.view := by
  rcases exec_next_cases hexec with ⟨-, res, -, rfl⟩ | ⟨-, res, hres, rfl⟩ | ⟨hi, -⟩
  · rfl
  · cases i
    case rxNop | rxByte | rxAbort | rxClrf | reset => cases hres
    case txNop | txClrf => cases hres; rfl
    case txStart l => cases hres; rw [State.withTx_tx, txStart_refused hbody]; rfl
    case txByte d => cases hbyte
  · exact absurd hi hreset

/-- Ops but reset that supply fewer bytes than are owed leave the frame open, with the bytes counted. -/
theorem execAll_frame_owing {ops : List Instr} {s : State} (hinv : s.Inv) (hbody : s.tx.state = .body)
    (hops : ∀ i ∈ ops, i ≠ .reset) (howed : s.tx.cnt.toNat + (payloadBytes ops).length < s.tx.len.toNat) :
    ∃ t, execAll ops s = .next t ∧ t.tx.state = .body ∧ t.tx.len = s.tx.len ∧
      t.tx.cnt.toNat = s.tx.cnt.toNat + (payloadBytes ops).length := by
  induction ops generalizing s with
  | nil => exact ⟨s, rfl, hbody, rfl, rfl⟩
  | cons i ops ih =>
    obtain ⟨hi, hrest⟩ := List.forall_mem_cons.mp hops
    obtain ⟨u, hexec⟩ := exec_ok hinv i
    have hinv' := exec_keeps_inv hinv hexec
    rw [execAll_cons_of_next hexec]
    cases hbyte : i.payloadByte with
    | none =>
      have hbytes : payloadBytes (i :: ops) = payloadBytes ops := List.filterMap_cons_none hbyte
      have hview := exec_keeps_frame hexec hi hbyte hbody
      have hstate : u.tx.state = s.tx.state := congrArg TxView.state hview
      have hlen : u.tx.len = s.tx.len := congrArg TxView.len hview
      have hcnt : u.tx.cnt = s.tx.cnt := congrArg TxView.cnt hview
      rw [hbytes, ← hlen, ← hcnt] at howed ⊢
      exact ih hinv' (hstate.trans hbody) hrest howed
    | some d =>
      have hbytes : payloadBytes (i :: ops) = d :: payloadBytes ops := List.filterMap_cons_some hbyte
      obtain rfl : i = .txByte d := by cases i <;> cases hbyte; rfl
      rw [hbytes, List.length_cons] at howed ⊢
      have hpasses := exec_txByte (txByte_passes (d := d) hbody (by omega))
      obtain rfl : s.withTx _ = u := Host.Outcome.next.inj (hpasses.symm.trans hexec)
      have hcnt := toNat_add_one_of_lt (hinv.2.body hbody).1
      obtain ⟨t, hrun, hstate, hlen, hcnt'⟩ := ih hinv' hbody hrest (by simp only [State.withTx_tx, hcnt]; omega)
      simp only [State.withTx_tx, hcnt] at hcnt'
      exact ⟨t, hrun, hstate, hlen, by omega⟩

end Sys2Proof.Machine

namespace Sys2Proof

open Machine

/-- Settles O19: `FRAME_DONE` comes with the empty frame or with the last byte of an open one. -/
theorem frameDoneMeansACompleteEnvelope : Obligations.FrameDoneMeansACompleteEnvelope := by
  intro i s hinv hport
  obtain ⟨res, hres⟩ := txStep_of_port s.params s.tx hport
  refine ⟨s.withTx res, exec_of_txStep hres, txStep_frameDone hinv.2 hres, txStep_body_of_not_frameDone hres,
    fun hev hidle hidle' => ?_⟩
  rw [State.withTx_wireOut, txStep_out_of_idle hres hev hidle hidle', List.append_nil]

/-- Settles O20: while bytes are owed the frame is open, and the last of them completes it. -/
theorem frameStaysOpenUntilItsBytesAreSupplied : Obligations.FrameStaysOpenUntilItsBytesAreSupplied := by
  refine fun s ops hinv hbody hops => ⟨execAll_frame_owing hinv hbody hops, fun d hlast => ?_⟩
  obtain ⟨t, hrun, hbody', hlen, hcnt⟩ := execAll_frame_owing hinv hbody hops (by omega)
  have hlast' : t.tx.cnt.toNat + 1 = t.tx.len.toNat := by rw [hcnt, hlen, hlast]
  exact ⟨_, execAll_snoc_of_next hrun (exec_txByte (txByte_last hbody' hlast')), rfl, rfl⟩

end Sys2Proof
end

section
/-! PROOFS. The checksum arithmetic (40_envelope_functions.md R101 to R103). -/

namespace Sys2Proof

open Machine

/-- Settles O40: the accumulator byte by byte, and over a whole sequence. -/
theorem accumulatorIsTheSumModulo256 : Obligations.AccumulatorIsTheSumModulo256 := by
  refine ⟨acc_nil, fun s b => ?_, acc_toNat⟩
  rw [acc_snoc, addSum_eq_ofNat]

/-- Settles O41: on numbers, the complement of a byte is what it lacks to `0xFF`, and the accumulator is the sum
modulo 256. -/
theorem checksumFormsAgree : Obligations.ChecksumFormsAgree := by
  have hbyteSum (s : List Byte) (c : Byte) : c = checksum s ↔ (byteSum s + c.toNat) % 256 = 0xFF := by
    rw [eq_checksum_iff_byteSum, byteSum_append, byteSum_cons, byteSum_nil, Nat.add_zero]
  refine ⟨rfl, fun s => ?_, fun s c => ⟨hbyteSum s c, ?_⟩⟩
  · apply BitVec.eq_of_toNat_eq
    rw [checksum_toNat, BitVec.toNat_not, acc_toNat]
  · rw [hbyteSum, acc_toNat, Nat.mod_add_mod]

end Sys2Proof
end

section
/-! PROOFS. The sticky flags (10_state.md R25; 60_exceptions.md R171) and the idempotent ops (20_memory.md R57). -/

namespace Sys2Proof.Machine

theorem getLsbD_setFlags_iff {n k : Nat} {flags mask : BitVec n} :
    (setFlags flags mask).getLsbD k = true ↔ flags.getLsbD k = true ∨ mask.getLsbD k = true := by
  rw [setFlags, BitVec.getLsbD_or, Bool.or_eq_true]

/-- BADDELIM is the flag of `BAD_DELIM` alone (R171). -/
theorem RxEvent.flag_bit0 (e : RxEvent) : e.flag.getLsbD 0 = true ↔ ∃ exp got, e = .badDelim exp got := by
  cases e <;> simp [RxEvent.flag]

/-- CKSUMERR is the flag of `CKSUM_ERR` alone. -/
theorem RxEvent.flag_bit1 (e : RxEvent) : e.flag.getLsbD 1 = true ↔ ∃ len exp got, e = .cksumErr len exp got := by
  cases e <;> simp [RxEvent.flag]

/-- OVERLEN is the flag of `OVERLEN` alone. -/
theorem RxEvent.flag_bit2 (e : RxEvent) : e.flag.getLsbD 2 = true ↔ ∃ len, e = .overlen len := by
  cases e <;> simp [RxEvent.flag]

/-- ABORTED is the flag of no event. -/
theorem RxEvent.flag_bit3 (e : RxEvent) : e.flag.getLsbD 3 = false := by
  cases e <;> simp [RxEvent.flag]

/-- An RX op other than `RX_CLRF` and `RX_ABORT` sets the flag of its event and clears none. -/
theorem rxStep_flags_of_event {p : Params} {r : RxState} {i : Instr} {res : RxResult}
    (h : rxStep p r i = some (.ok res)) (hclrf : ∀ m, i ≠ .rxClrf m) (habort : i ≠ .rxAbort) :
    res.rx.flags = setFlags r.flags res.ev.flag := by
  cases i
  case rxNop => cases h; exact (setFlags_zero _).symm
  case rxByte d => exact rxByte_flags (Option.some.inj h)
  case rxAbort => exact absurd rfl habort
  case rxClrf m => exact absurd rfl (hclrf m)
  case txNop | txStart | txByte | txClrf | reset => cases h

/-- Of the flags an abort sets ABORTED, outside HUNT, and no other. -/
theorem rxAbort_getLsbD (r : RxState) (k : Nat) :
    (rxAbort r).rx.flags.getLsbD k = true ↔ r.flags.getLsbD k = true ∨ (k = 3 ∧ r.state ≠ .hunt) := by
  by_cases hstate : r.state = .hunt
  · simp [rxAbort_hunt hstate, hstate]
  · have hbit : (0b1000#4).getLsbD k = true ↔ k = 3 := by
      rw [show 0b1000#4 = BitVec.twoPow 4 3 from rfl, BitVec.getLsbD_twoPow]
      simp [eq_comm]
    rw [rxAbort_open hstate, quietRx_rx, BitVec.getLsbD_or, Bool.or_eq_true, hbit]
    simp [hstate]

theorem clearFlags_clearFlags {n : Nat} (flags mask : BitVec n) :
    clearFlags (clearFlags flags mask) mask = clearFlags flags mask := by
  rw [clearFlags, clearFlags, BitVec.and_assoc, BitVec.and_self]

/-- A quiet TX op, in the machine. -/
theorem exec_of_quietTx {i : Instr} {s : State} {t : TxState} (h : txStep s.params s.tx i = some (quietTx t)) :
    exec i s = .next { s with tx := t, txOut := [], txEvent := .none } := by
  rw [exec_of_txStep h, State.withTx_quietTx]

end Sys2Proof.Machine

namespace Sys2Proof

open Machine

/-- Settles O34: an RX op sets the flag of its event, and an abort ABORTED. -/
theorem rxFlagsAreSetByTheirEvents : Obligations.RxFlagsAreSetByTheirEvents := by
  intro i s t hexec hclrf hreset
  rcases exec_next_cases hexec with ⟨hport, res, hres, rfl⟩ | ⟨hport, res, -, rfl⟩ | ⟨hi, -⟩
  · by_cases habort : i = .rxAbort
    · subst habort
      obtain rfl : rxAbort s.rx = res := by cases hres; rfl
      have hev : (rxAbort s.rx).ev = .none := rfl
      simp only [State.withRx_rx, State.withRx_rxEvent, rxAbort_getLsbD, hev]
      simp
    · have hflags := rxStep_flags_of_event hres hclrf habort
      simp only [State.withRx_rx, State.withRx_rxEvent, hflags, getLsbD_setFlags_iff, RxEvent.flag_bit0,
        RxEvent.flag_bit1, RxEvent.flag_bit2, RxEvent.flag_bit3]
      simp [hport, habort]
  · have habort : i ≠ .rxAbort := by
      rintro rfl
      cases hport
    simp [hport, habort]
  · exact absurd hi hreset

/-- Settles O52: a quiet op with a result that is its own result again, an abort after an abort, and reset. -/
theorem idempotentOpsTwiceEqualOnce : Obligations.IdempotentOpsTwiceEqualOnce := by
  intro i s hwire hpayload hstart
  cases i
  case rxNop => exact ⟨_, exec_of_quiet rfl, exec_of_quiet rfl⟩
  case rxByte d => cases hwire
  case rxAbort => exact ⟨_, exec_rxAbort rfl, exec_rxAbort (rxAbort_rxAbort s.rx)⟩
  case rxClrf m =>
    refine ⟨_, exec_of_quiet rfl, (exec_of_quiet rfl).trans ?_⟩
    simp only [clearFlags_clearFlags]
  case txNop => exact ⟨_, exec_of_quietTx rfl, exec_of_quietTx rfl⟩
  case txStart l => exact absurd rfl (hstart l)
  case txByte d => cases hpayload
  case txClrf m =>
    refine ⟨_, exec_of_quietTx rfl, (exec_of_quietTx rfl).trans ?_⟩
    simp only [clearFlags_clearFlags]
  case reset => exact ⟨_, rfl, rfl⟩

end Sys2Proof
end
